-- ==== Sys2Proof/Word.lean ====
section
/-! DEFINITION. Word types (spec/00_scope.md R9, R11; spec/30_encoding.md R100). -/

namespace Sys2Proof

/-- A SHA-1 word and a register: unsigned, 32 bits (R11, R213). -/
abbrev Word := BitVec 32

/-- One byte of a message, a key or a digest. -/
abbrev Byte := BitVec 8

/-- A byte offset within the 128-byte register window: ADDR[6:0] (R71). -/
abbrev Offset := BitVec 7

/-- The byte strobes of a write: STRB[3:0] (R100). -/
abbrev Strobe := BitVec 4

/-- One transaction: the 44-bit word RW, STRB, ADDR, WDATA (R100). -/
abbrev TxnWord := BitVec 44

/-- The five-word chaining state H[0..4] (R42). -/
abbrev Chain := Vector Word 5

/-- One block of sixteen message words BLOCK[0..15] (R43). -/
abbrev Block := Vector Word 16

end Sys2Proof
end

