-- ==== Sys2Proof/Syntax.lean ====
section
/-! DEFINITION. The transactions of SHA1_core, one constructor for each row of spec/opcode_table.json
(spec/30_encoding.md R107).

STRB and WDATA of a read are ignored by the block and are not part of the term: its canonical spelling has both 0
(R102, R104; log 11). A write keeps every field of its word. -/

namespace Sys2Proof

/-- One bus transaction. `i` is a BLOCK index ADDR[5:2], `a` the field ADDR[6:2] of an aligned offset, `addr` the whole
ADDR, `d` the written data WDATA, `strb` the byte strobes. -/
inductive Instr where
  /-- RD_CTRL (R131) -/
  | rdCtrl
  /-- RD_STATUS (R132) -/
  | rdStatus
  /-- RD_CORE_ID (R133) -/
  | rdCoreId
  /-- RD_CORE_VERSION (R134) -/
  | rdCoreVersion
  /-- RD_H0 (R135) -/
  | rdH0
  /-- RD_H1 (R135) -/
  | rdH1
  /-- RD_H2 (R135) -/
  | rdH2
  /-- RD_H3 (R135) -/
  | rdH3
  /-- RD_H4 (R135) -/
  | rdH4
  /-- RD_BLOCK (R136) -/
  | rdBlock (i : Fin 16)
  /-- RD_RSVD (R138) -/
  | rdRsvd (a : BitVec 5)
  /-- RD_MISALIGNED (R137) -/
  | rdMisaligned (addr : Offset)
  /-- CMD_NOP (R171) -/
  | cmdNop
  /-- CMD_INIT (R172) -/
  | cmdInit
  /-- CMD_NEXT (R174) -/
  | cmdNext
  /-- CMD_FIRST (R175) -/
  | cmdFirst
  /-- CMD_CLRERR (R176) -/
  | cmdClrerr
  /-- CMD_ILLEGAL (R178) -/
  | cmdIllegal (d : Word)
  /-- WR_STATUS (R139) -/
  | wrStatus (d : Word)
  /-- WR_CORE_ID (R140) -/
  | wrCoreId (d : Word)
  /-- WR_CORE_VERSION (R141) -/
  | wrCoreVersion (d : Word)
  /-- WR_H0 (R142) -/
  | wrH0 (d : Word)
  /-- WR_H1 (R142) -/
  | wrH1 (d : Word)
  /-- WR_H2 (R142) -/
  | wrH2 (d : Word)
  /-- WR_H3 (R142) -/
  | wrH3 (d : Word)
  /-- WR_H4 (R142) -/
  | wrH4 (d : Word)
  /-- WR_BLOCK (R143) -/
  | wrBlock (i : Fin 16) (d : Word)
  /-- WR_RSVD (R146) -/
  | wrRsvd (a : BitVec 5) (d : Word)
  /-- WR_PARTIAL (R145) -/
  | wrPartial (strb : Strobe) (a : BitVec 5) (d : Word)
  /-- WR_MISALIGNED (R144) -/
  | wrMisaligned (strb : Strobe) (addr : Offset) (d : Word)
  deriving DecidableEq, Repr

/-- The direction RW of a transaction: true for a write (R101). -/
def Instr.isWrite : Instr → Bool
  | .rdCtrl | .rdStatus | .rdCoreId | .rdCoreVersion => false
  | .rdH0 | .rdH1 | .rdH2 | .rdH3 | .rdH4 => false
  | .rdBlock _ | .rdRsvd _ | .rdMisaligned _ => false
  | .cmdNop | .cmdInit | .cmdNext | .cmdFirst | .cmdClrerr | .cmdIllegal _ => true
  | .wrStatus _ | .wrCoreId _ | .wrCoreVersion _ => true
  | .wrH0 _ | .wrH1 _ | .wrH2 _ | .wrH3 _ | .wrH4 _ => true
  | .wrBlock _ _ | .wrRsvd _ _ | .wrPartial _ _ _ | .wrMisaligned _ _ _ => true

/-- The row of spec/opcode_table.json a transaction belongs to (R107). -/
def Instr.mnemonic : Instr → String
  | .rdCtrl => "RD_CTRL"
  | .rdStatus => "RD_STATUS"
  | .rdCoreId => "RD_CORE_ID"
  | .rdCoreVersion => "RD_CORE_VERSION"
  | .rdH0 => "RD_H0"
  | .rdH1 => "RD_H1"
  | .rdH2 => "RD_H2"
  | .rdH3 => "RD_H3"
  | .rdH4 => "RD_H4"
  | .rdBlock _ => "RD_BLOCK"
  | .rdRsvd _ => "RD_RSVD"
  | .rdMisaligned _ => "RD_MISALIGNED"
  | .cmdNop => "CMD_NOP"
  | .cmdInit => "CMD_INIT"
  | .cmdNext => "CMD_NEXT"
  | .cmdFirst => "CMD_FIRST"
  | .cmdClrerr => "CMD_CLRERR"
  | .cmdIllegal _ => "CMD_ILLEGAL"
  | .wrStatus _ => "WR_STATUS"
  | .wrCoreId _ => "WR_CORE_ID"
  | .wrCoreVersion _ => "WR_CORE_VERSION"
  | .wrH0 _ => "WR_H0"
  | .wrH1 _ => "WR_H1"
  | .wrH2 _ => "WR_H2"
  | .wrH3 _ => "WR_H3"
  | .wrH4 _ => "WR_H4"
  | .wrBlock _ _ => "WR_BLOCK"
  | .wrRsvd _ _ => "WR_RSVD"
  | .wrPartial _ _ _ => "WR_PARTIAL"
  | .wrMisaligned _ _ _ => "WR_MISALIGNED"

end Sys2Proof
end

