-- ==== Sys2Proof/WellFormed.lean ====
section
/-! DEFINITION. Which terms stand for a transaction word: the side conditions of the rows of the opcode map
(spec/30_encoding.md R106, R107). They are written as the rules that own them list the values, not as the decoder tests
them. -/

namespace Sys2Proof

/-- ADDR[6:2] of a reserved offset: 0x10-0x1C and 0x34-0x3C (spec/10_state.md R44). -/
def reservedIndex (a : BitVec 5) : Bool :=
  [0x10, 0x14, 0x18, 0x1C, 0x34, 0x38, 0x3C].contains (4 * a.toNat)

/-- The side condition of each row. -/
def Instr.wellFormed : Instr → Bool
  | .rdCtrl | .rdStatus | .rdCoreId | .rdCoreVersion => true
  | .rdH0 | .rdH1 | .rdH2 | .rdH3 | .rdH4 => true
  | .rdBlock _ => true
  | .rdRsvd a => reservedIndex a
  | .rdMisaligned addr => addr.toNat % 4 != 0
  | .cmdNop | .cmdInit | .cmdNext | .cmdFirst | .cmdClrerr => true
  | .cmdIllegal d => decide (5 ≤ d.toNat)
  | .wrStatus _ | .wrCoreId _ | .wrCoreVersion _ => true
  | .wrH0 _ | .wrH1 _ | .wrH2 _ | .wrH3 _ | .wrH4 _ => true
  | .wrBlock _ _ => true
  | .wrRsvd a _ => reservedIndex a
  | .wrPartial strb _ _ => strb != 0b1111#4
  | .wrMisaligned _ addr _ => addr.toNat % 4 != 0

end Sys2Proof
end

