-- ==== Sys2Proof/Decode.lean ====
section
/-! DEFINITION. The transaction encoding (spec/30_encoding.md): fields, the decoder, the opcode map as data with the
decoder that reads it, and the encoder. -/

namespace Sys2Proof

/-! ### Fields (R100) -/

/-- RW, bit 43: true for a write. -/
def rwOf (w : TxnWord) : Bool := w.getLsbD 43

/-- STRB, bits 42:39. -/
def strbOf (w : TxnWord) : Strobe := w.extractLsb' 39 4

/-- ADDR, bits 38:32. -/
def addrOf (w : TxnWord) : Offset := w.extractLsb' 32 7

/-- WDATA, bits 31:0. -/
def wdataOf (w : TxnWord) : Word := w.extractLsb' 0 32

/-- A word from its four fields. -/
def assemble (rw : Bool) (strb : Strobe) (addr : Offset) (d : Word) : TxnWord :=
  BitVec.ofBool rw ++ strb ++ addr ++ d

/-! ### Offsets of the registers (spec/10_state.md R33) -/

/-- The aligned offset whose field ADDR[6:2] is `a`. -/
def alignedOffset (a : BitVec 5) : Offset := a ++ 0b00#2

/-- 0x20 + 4·i: the offset of H[i]. -/
def hOffset (i : Fin 5) : Offset := 0b01#2 ++ BitVec.ofNat 3 i.val ++ 0b00#2

/-- 0x40 + 4·i: the offset of BLOCK[i]. -/
def blockOffset (i : Fin 16) : Offset := 0b1#1 ++ BitVec.ofNat 4 i.val ++ 0b00#2

/-- The offset of CTRL. -/
def ctrlOffset : Offset := 0x00#7

/-- ADDR[1:0] ≠ 0b00 (R106, first check). -/
def misaligned (addr : Offset) : Bool := addr.extractLsb' 0 2 != 0b00#2

/-! ### The decoder -/

/-- What an aligned offset selects. -/
inductive Target where
  | ctrl | status | coreId | coreVersion
  | chain (i : Fin 5)
  | block (i : Fin 16)
  | reserved (a : BitVec 5)
  deriving DecidableEq, Repr

/-- The register an aligned offset addresses, by fields (R103). -/
def target (addr : Offset) : Target :=
  if addr.extractLsb' 6 1 = 0b1#1 then
    .block (addr.extractLsb' 2 4).toFin
  else if addr.extractLsb' 5 2 = 0b01#2 then
    if h : (addr.extractLsb' 2 3).toNat < 5 then .chain ⟨(addr.extractLsb' 2 3).toNat, h⟩
    else .reserved (addr.extractLsb' 2 5)
  else if addr.extractLsb' 4 3 = 0b000#3 then
    if addr.extractLsb' 2 2 = 0#2 then .ctrl
    else if addr.extractLsb' 2 2 = 1#2 then .status
    else if addr.extractLsb' 2 2 = 2#2 then .coreId
    else .coreVersion
  else .reserved (addr.extractLsb' 2 5)

/-- WDATA[31:4] ≠ 0 or OP ≥ 5 (spec/41_commands.md R170, check 1). -/
def illegalCommand (d : Word) : Bool := d.extractLsb' 4 28 != 0#28 || decide (5 ≤ (d.extractLsb' 0 4).toNat)

/-- A full-strobe write to CTRL: the command its value selects (R170). -/
def decodeCommand (d : Word) : Instr :=
  if illegalCommand d then .cmdIllegal d
  else if d.extractLsb' 0 4 = 0#4 then .cmdNop
  else if d.extractLsb' 0 4 = 1#4 then .cmdInit
  else if d.extractLsb' 0 4 = 2#4 then .cmdNext
  else if d.extractLsb' 0 4 = 3#4 then .cmdFirst
  else .cmdClrerr

/-- RD_H0..RD_H4 by index. -/
def readChain (i : Fin 5) : Instr :=
  match i with
  | 0 => .rdH0
  | 1 => .rdH1
  | 2 => .rdH2
  | 3 => .rdH3
  | 4 => .rdH4

/-- WR_H0..WR_H4 by index. -/
def writeChain (i : Fin 5) (d : Word) : Instr :=
  match i with
  | 0 => .wrH0 d
  | 1 => .wrH1 d
  | 2 => .wrH2 d
  | 3 => .wrH3 d
  | 4 => .wrH4 d

/-- An aligned read. -/
def decodeRead (t : Target) : Instr :=
  match t with
  | .ctrl => .rdCtrl
  | .status => .rdStatus
  | .coreId => .rdCoreId
  | .coreVersion => .rdCoreVersion
  | .chain i => readChain i
  | .block i => .rdBlock i
  | .reserved a => .rdRsvd a

/-- An aligned write with all four strobes. -/
def decodeWrite (t : Target) (d : Word) : Instr :=
  match t with
  | .ctrl => decodeCommand d
  | .status => .wrStatus d
  | .coreId => .wrCoreId d
  | .coreVersion => .wrCoreVersion d
  | .chain i => writeChain i d
  | .block i => .wrBlock i d
  | .reserved a => .wrRsvd a d

/-- The decoder, total on 44-bit words: the checks of R106 in their order. -/
def decode (w : TxnWord) : Instr :=
  if misaligned (addrOf w) then
    if rwOf w then .wrMisaligned (strbOf w) (addrOf w) (wdataOf w) else .rdMisaligned (addrOf w)
  else if rwOf w = false then decodeRead (target (addrOf w))
  else if strbOf w ≠ 0b1111#4 then .wrPartial (strbOf w) ((addrOf w).extractLsb' 2 5) (wdataOf w)
  else decodeWrite (target (addrOf w)) (wdataOf w)

/-- Why a number is no transaction. -/
inductive DecodeError where
  /-- The number has a bit above bit 43; a transaction is exactly one 44-bit word (R110; log 10). -/
  | widerThanTransaction
  deriving DecidableEq, Repr

/-- The decoder on any number: a number that is no 44-bit word is rejected by name (log 10). -/
def decodeNat (n : Nat) : Except DecodeError Instr :=
  if n < 2 ^ 44 then .ok (decode (BitVec.ofNat 44 n)) else .error .widerThanTransaction

/-- The instruction the decoder reads from a word numbered as spec/opcode_table.json numbers it: bit 43 is RW. -/
def decodeTableWord (nbits w : Nat) : Option Instr :=
  match decodeNat (w % 2 ^ nbits) with
  | .ok i => some i
  | .error _ => none

/-! ### The opcode map as data (R107) -/

/-- One row of the opcode map. `build` reads the row's operands from the word. -/
structure OpcodeRow where
  mnemonic : String
  pattern  : TxnWord
  mask     : TxnWord
  priority : Nat
  build    : TxnWord → Instr

/-- `(word ∧ mask) = match` (R106). -/
def OpcodeRow.hits (r : OpcodeRow) (w : TxnWord) : Bool := w &&& r.mask == r.pattern

/-- The BLOCK index ADDR[5:2] of a word. -/
def blockIndexOf (w : TxnWord) : Fin 16 := ((addrOf w).extractLsb' 2 4).toFin

/-- The field ADDR[6:2] of a word. -/
def wordIndexOf (w : TxnWord) : BitVec 5 := (addrOf w).extractLsb' 2 5

/-- The rows of format RD. -/
def readRows : List OpcodeRow := [
  ⟨"RD_CTRL", 0x00000000000#44, 0x87f00000000#44, 1, fun _ => .rdCtrl⟩,
  ⟨"RD_STATUS", 0x00400000000#44, 0x87f00000000#44, 1, fun _ => .rdStatus⟩,
  ⟨"RD_CORE_ID", 0x00800000000#44, 0x87f00000000#44, 1, fun _ => .rdCoreId⟩,
  ⟨"RD_CORE_VERSION", 0x00c00000000#44, 0x87f00000000#44, 1, fun _ => .rdCoreVersion⟩,
  ⟨"RD_H0", 0x02000000000#44, 0x87f00000000#44, 1, fun _ => .rdH0⟩,
  ⟨"RD_H1", 0x02400000000#44, 0x87f00000000#44, 1, fun _ => .rdH1⟩,
  ⟨"RD_H2", 0x02800000000#44, 0x87f00000000#44, 1, fun _ => .rdH2⟩,
  ⟨"RD_H3", 0x02c00000000#44, 0x87f00000000#44, 1, fun _ => .rdH3⟩,
  ⟨"RD_H4", 0x03000000000#44, 0x87f00000000#44, 1, fun _ => .rdH4⟩,
  ⟨"RD_BLOCK", 0x04000000000#44, 0x84300000000#44, 1, fun w => .rdBlock (blockIndexOf w)⟩,
  ⟨"RD_RSVD", 0x00000000000#44, 0x80300000000#44, 2, fun w => .rdRsvd (wordIndexOf w)⟩,
  ⟨"RD_MISALIGNED", 0x00000000000#44, 0x80000000000#44, 3, fun w => .rdMisaligned (addrOf w)⟩]

/-- The rows of format WR_CTRL. -/
def commandRows : List OpcodeRow := [
  ⟨"CMD_NOP", 0xf8000000000#44, 0xfffffffffff#44, 1, fun _ => .cmdNop⟩,
  ⟨"CMD_INIT", 0xf8000000001#44, 0xfffffffffff#44, 1, fun _ => .cmdInit⟩,
  ⟨"CMD_NEXT", 0xf8000000002#44, 0xfffffffffff#44, 1, fun _ => .cmdNext⟩,
  ⟨"CMD_FIRST", 0xf8000000003#44, 0xfffffffffff#44, 1, fun _ => .cmdFirst⟩,
  ⟨"CMD_CLRERR", 0xf8000000004#44, 0xfffffffffff#44, 1, fun _ => .cmdClrerr⟩,
  ⟨"CMD_ILLEGAL", 0xf8000000000#44, 0xfff00000000#44, 2, fun w => .cmdIllegal (wdataOf w)⟩]

/-- The rows of format WR. -/
def writeRows : List OpcodeRow := [
  ⟨"WR_STATUS", 0xf8400000000#44, 0xfff00000000#44, 1, fun w => .wrStatus (wdataOf w)⟩,
  ⟨"WR_CORE_ID", 0xf8800000000#44, 0xfff00000000#44, 1, fun w => .wrCoreId (wdataOf w)⟩,
  ⟨"WR_CORE_VERSION", 0xf8c00000000#44, 0xfff00000000#44, 1, fun w => .wrCoreVersion (wdataOf w)⟩,
  ⟨"WR_H0", 0xfa000000000#44, 0xfff00000000#44, 1, fun w => .wrH0 (wdataOf w)⟩,
  ⟨"WR_H1", 0xfa400000000#44, 0xfff00000000#44, 1, fun w => .wrH1 (wdataOf w)⟩,
  ⟨"WR_H2", 0xfa800000000#44, 0xfff00000000#44, 1, fun w => .wrH2 (wdataOf w)⟩,
  ⟨"WR_H3", 0xfac00000000#44, 0xfff00000000#44, 1, fun w => .wrH3 (wdataOf w)⟩,
  ⟨"WR_H4", 0xfb000000000#44, 0xfff00000000#44, 1, fun w => .wrH4 (wdataOf w)⟩,
  ⟨"WR_BLOCK", 0xfc000000000#44, 0xfc300000000#44, 1, fun w => .wrBlock (blockIndexOf w) (wdataOf w)⟩,
  ⟨"WR_RSVD", 0xf8000000000#44, 0xf8300000000#44, 3, fun w => .wrRsvd (wordIndexOf w) (wdataOf w)⟩,
  ⟨"WR_PARTIAL", 0x80000000000#44, 0x80300000000#44, 4, fun w => .wrPartial (strbOf w) (wordIndexOf w) (wdataOf w)⟩,
  ⟨"WR_MISALIGNED", 0x80000000000#44, 0x80000000000#44, 5,
    fun w => .wrMisaligned (strbOf w) (addrOf w) (wdataOf w)⟩]

/-- The whole opcode map; every row's mask holds bit 43, so a word is hit only by rows of its own RW value. -/
def opcodeTable : List OpcodeRow := readRows ++ commandRows ++ writeRows

/-- The row R106 chooses: the priorities in ascending order, and of each the first row the word hits. -/
def winningRow (w : TxnWord) : Option OpcodeRow :=
  [1, 2, 3, 4, 5].findSome? fun p => opcodeTable.find? fun r => r.priority == p && r.hits w

/-- The decoder that reads the opcode map (R106), beside `decode`, which tests the fields. -/
def decodeByTable (w : TxnWord) : Option Instr := (winningRow w).map fun r => r.build w

/-! ### The encoder -/

/-- The word of a transaction; of a read, its canonical spelling (R102, R104, R107, R111). -/
def encode : Instr → TxnWord
  | .rdCtrl => assemble false 0 0x00#7 0
  | .rdStatus => assemble false 0 0x04#7 0
  | .rdCoreId => assemble false 0 0x08#7 0
  | .rdCoreVersion => assemble false 0 0x0C#7 0
  | .rdH0 => assemble false 0 0x20#7 0
  | .rdH1 => assemble false 0 0x24#7 0
  | .rdH2 => assemble false 0 0x28#7 0
  | .rdH3 => assemble false 0 0x2C#7 0
  | .rdH4 => assemble false 0 0x30#7 0
  | .rdBlock i => assemble false 0 (blockOffset i) 0
  | .rdRsvd a => assemble false 0 (alignedOffset a) 0
  | .rdMisaligned addr => assemble false 0 addr 0
  | .cmdNop => assemble true 0b1111#4 0x00#7 0x0#32
  | .cmdInit => assemble true 0b1111#4 0x00#7 0x1#32
  | .cmdNext => assemble true 0b1111#4 0x00#7 0x2#32
  | .cmdFirst => assemble true 0b1111#4 0x00#7 0x3#32
  | .cmdClrerr => assemble true 0b1111#4 0x00#7 0x4#32
  | .cmdIllegal d => assemble true 0b1111#4 0x00#7 d
  | .wrStatus d => assemble true 0b1111#4 0x04#7 d
  | .wrCoreId d => assemble true 0b1111#4 0x08#7 d
  | .wrCoreVersion d => assemble true 0b1111#4 0x0C#7 d
  | .wrH0 d => assemble true 0b1111#4 0x20#7 d
  | .wrH1 d => assemble true 0b1111#4 0x24#7 d
  | .wrH2 d => assemble true 0b1111#4 0x28#7 d
  | .wrH3 d => assemble true 0b1111#4 0x2C#7 d
  | .wrH4 d => assemble true 0b1111#4 0x30#7 d
  | .wrBlock i d => assemble true 0b1111#4 (blockOffset i) d
  | .wrRsvd a d => assemble true 0b1111#4 (alignedOffset a) d
  | .wrPartial strb a d => assemble true strb (alignedOffset a) d
  | .wrMisaligned strb addr d => assemble true strb addr d

/-- A word with the bits the block ignores cleared: STRB and WDATA of a read (R102, R104). -/
def canonicalWord (w : TxnWord) : TxnWord :=
  if rwOf w then w else assemble false 0 (addrOf w) 0

end Sys2Proof
end

