-- ==== Sys2Proof/Config.lean ====
section
/-! DEFINITION. What an implementation or its platform fixes, and the one free value (spec/00_scope.md R9, R10). -/

namespace Sys2Proof.Config

/-- CORE_ID, hard-wired: the ASCII bytes "SHA1" (R3, R40). -/
def coreId : Word := 0x53484131#32

/-- CORE_VERSION, hard-wired: major version 1, minor version 0 (R3, R41). -/
def coreVersion : Word := 0x00010000#32

/-- BASE, the bus address at which the platform places the window: OPEN (R10, U12; log 12). -/
opaque base : Nat

/-- One less than T_COMPRESS; OPEN (U9; log 12). -/
opaque tCompressPred : Nat

/-- T_COMPRESS, the clock cycles from acceptance to completion: OPEN, a positive integer, the same for every
compression (R10, R310, D25). The model has no time, and no rule depends on it (R310; log 12). -/
def tCompress : Nat := tCompressPred + 1

/-- The free value of R84 and U10: how many further steps pass between the `n`th accepted NEXT or FIRST and its
completion, if no reset intervenes. "The model admits every such position" (R84); that it is a natural number is
R219's "after finitely many other steps". DESIGN CHOICE (log 2), safe in claims about one run, since no proof can see a value of it;
unsafe in claims that compare two. -/
opaque completionWait (n : Nat) : Nat

end Sys2Proof.Config
end

