-- ==== Sys2Proof/Machine/Compression.lean ====
section
/-! DEFINITION. The SHA-1 compression function (spec/42_compression.md), a pure function of the chaining state and one
block. Nothing here knows the register file. -/

namespace Sys2Proof.Machine

/-- The initial state IV (R200). -/
def iv : Chain := #v[0x67452301#32, 0xEFCDAB89#32, 0x98BADCFE#32, 0x10325476#32, 0xC3D2E1F0#32]

/-- ROTL_n(x), for 0 < n < 32 (spec/00_scope.md R11). -/
def rotl (n : Nat) (x : Word) : Word := (x <<< n) ||| (x >>> (32 - n))

/-- Ch (R202). -/
def ch (x y z : Word) : Word := (x &&& y) ^^^ (~~~x &&& z)

/-- Parity (R203). -/
def parity (x y z : Word) : Word := x ^^^ y ^^^ z

/-- Maj (R204). -/
def maj (x y z : Word) : Word := (x &&& y) ^^^ (x &&& z) ^^^ (y &&& z)

/-- The function f_t of step `t` (R205). -/
def roundFunction (t : Nat) : Word → Word → Word → Word :=
  if t ≤ 19 then ch else if t ≤ 39 then parity else if t ≤ 59 then maj else parity

/-- The constant K_t of step `t` (R201). -/
def roundConstant (t : Nat) : Word :=
  if t ≤ 19 then 0x5A827999#32 else if t ≤ 39 then 0x6ED9EBA1#32
  else if t ≤ 59 then 0x8F1BBCDC#32 else 0xCA62C1D6#32

/-- One word of the message schedule from the words before it, the newest first: W[t-3], W[t-8], W[t-14] and W[t-16]
stand at places 2, 7, 13 and 15 (R207). -/
def nextScheduleWord (newestFirst : List Word) : Word :=
  rotl 1 (newestFirst.getD 2 0 ^^^ newestFirst.getD 7 0 ^^^ newestFirst.getD 13 0 ^^^ newestFirst.getD 15 0)

/-- The first 16 + `n` words of the message schedule, the newest first (R207). -/
def scheduleNewestFirst (m : Block) : Nat → List Word
  | 0 => m.toList.reverse
  | n + 1 =>
    let ws := scheduleNewestFirst m n
    nextScheduleWord ws :: ws

/-- The message schedule W[0..79] (R207). -/
def schedule (m : Block) : List Word := (scheduleNewestFirst m 64).reverse

/-- W[t]. -/
def scheduleWord (m : Block) (t : Nat) : Word := (schedule m).getD t 0

/-- The five working words (R209). -/
structure Working where
  a : Word
  b : Word
  c : Word
  d : Word
  e : Word
  deriving DecidableEq, Repr

/-- The working words at the start (R209). -/
def initWorking (hin : Chain) : Working := ⟨hin[0], hin[1], hin[2], hin[3], hin[4]⟩

/-- Step `t` with the schedule word `w`; the five assignments are simultaneous (R210). -/
def roundStep (t : Nat) (w : Word) (v : Working) : Working where
  a := rotl 5 v.a + roundFunction t v.b v.c v.d + v.e + roundConstant t + w
  b := v.a
  c := rotl 30 v.b
  d := v.c
  e := v.d

/-- The steps from step `t` on, one for each schedule word, in increasing order (R210). -/
def runRounds : Nat → List Word → Working → Working
  | _, [], v => v
  | t, w :: ws, v => runRounds (t + 1) ws (roundStep t w v)

/-- The feed-forward after step 79 (R211). -/
def feedForward (hin : Chain) (v : Working) : Chain :=
  #v[hin[0] + v.a, hin[1] + v.b, hin[2] + v.c, hin[3] + v.d, hin[4] + v.e]

/-- Compress(Hin, M) (R214). -/
def compress (hin : Chain) (m : Block) : Chain :=
  feedForward hin (runRounds 0 (schedule m) (initWorking hin))

/-! ### The circular-buffer form (R208): sixteen schedule words, W[t] taking the place of W[t-16] -/

/-- The schedule word of step `t` and the buffer after it: for t ≥ 16 it is computed in place of W[t-16]. -/
def circularWord (t : Nat) (buf : Block) : Word × Block :=
  let slot (k : Nat) : Word := buf[k % 16]'(Nat.mod_lt _ (by decide))
  if t < 16 then (slot t, buf)
  else
    let w := rotl 1 (slot (t - 3) ^^^ slot (t - 8) ^^^ slot (t - 14) ^^^ slot (t - 16))
    (w, buf.set (t % 16) w (Nat.mod_lt _ (by decide)))

/-- `n` steps from step `t` on, over a sixteen-word buffer. -/
def runCircular : Nat → Nat → Block → Working → Working
  | 0, _, _, v => v
  | n + 1, t, buf, v =>
    let (w, buf') := circularWord t buf
    runCircular n (t + 1) buf' (roundStep t w v)

/-- Compress as a datapath with a circular buffer computes it (R208). -/
def compressCircular (hin : Chain) (m : Block) : Chain :=
  feedForward hin (runCircular 80 0 m (initWorking hin))

end Sys2Proof.Machine
end

