-- ==== Sys2Proof/Machine/State.lean ====
section
/-! DEFINITION. The state of SHA1_core (spec/10_state.md R50), what its bus carries, and the state right after reset. -/

namespace Sys2Proof.Machine

/-- RESP (spec/30_encoding.md R113). -/
inductive Resp where
  | okay
  | slverr
  deriving DecidableEq, Repr

/-- What a transaction returns: RESP, and for a read RDATA (R113). -/
inductive Response where
  | read (resp : Resp) (rdata : Word)
  | write (resp : Resp)
  deriving DecidableEq, Repr

/-- An error event as FAULT records it: its code with its value (spec/60_exceptions.md R271). -/
inductive ErrorEvent where
  /-- E1 BUSY_REJECT with ADDR (R276). -/
  | busyReject (addr : Offset)
  /-- E2 ILLEGAL_CMD with WDATA (R277). -/
  | illegalCmd (d : Word)
  /-- E3 MISALIGNED with ADDR (R272). -/
  | misaligned (addr : Offset)
  /-- E4 PARTIAL_WRITE with ADDR and STRB (R273). -/
  | partialWrite (addr : Offset) (strb : Strobe)
  deriving DecidableEq, Repr

/-- The bus master that issues a transaction: the instance's one host, or another one (R288). -/
inductive Master where
  | owner
  | other
  deriving DecidableEq, Repr

/-- What the outside does next: a transaction of a bus master, or reset (R30). -/
inductive Input where
  | txn (master : Master) (w : TxnWord)
  | reset
  deriving DecidableEq, Repr

/-- The step the machine takes next: one agent's step, or none (R30). -/
inductive Event where
  /-- Reset is taken (R300). -/
  | reset
  /-- The datapath completes the pending compression (R218). -/
  | completion
  /-- The instance's host issues a transaction (R130). -/
  | transaction (w : TxnWord)
  /-- Another bus master issues a transaction (R288). -/
  | foreign
  /-- Nothing is asked and nothing is due. -/
  | idle
  deriving DecidableEq, Repr

/-- The record of a compression in progress: the state and the block captured at acceptance (R46). -/
structure Pending where
  hin : Chain
  m   : Block
  deriving DecidableEq, Repr

/-- The machine. READY is computed from PEND (R36, R50; log 6). -/
structure State where
  /-- H0..H4 (R42). -/
  h       : Chain
  /-- BLOCK0..BLOCK15 (R43). -/
  block   : Block
  /-- STATUS.VALID (R37). -/
  valid   : Bool
  /-- STATUS.ERR_BUSY (R38). -/
  errBusy : Bool
  /-- STATUS.ERR_CMD (R39). -/
  errCmd  : Bool
  /-- PEND (R46). -/
  pend    : Option Pending
  /-- FAULT, a set: no repeats, in the order raised (R48; log 5). -/
  faults  : List ErrorEvent
  /-- The model's own: what the outside does next, oldest first (log 1). -/
  inputs  : List Input
  /-- The model's own: the response the bus carries for the last transaction (R113; log 4). -/
  resp    : Option Response
  /-- The model's own: further steps before the pending compression completes (R84; log 2). -/
  wait    : Nat
  /-- The model's own: how many free values have been drawn (log 2). -/
  draws   : Nat
  deriving DecidableEq, Repr

/-- Why a run stops with a fault. NO transaction and no step of the block ends in one: the block's error events E1 to E4
are next states (R270, R275). All of these are errors of the HOST's own software, raised before any transaction. -/
inductive Fault where
  /-- Raised by `xorBytes` on buffers of unequal lengths (93_implementation_defined.md U3: "fault (in the host; the block
  never sees it)"). Safe: the run stops. -/
  | xorLengthMismatch
  /-- Raised by `pbkdf2` when iterations = 0 (R254). Safe: the spec names the error. -/
  | noIterations
  /-- Raised by `pbkdf2` on an empty password (R254). Safe: the spec names the error. -/
  | emptyPassword
  /-- Raised by `pbkdf2` on an empty salt (R254). Safe: the spec names the error. -/
  | emptySalt
  /-- Raised by `pbkdf2` when outputLength > (2^32 − 1)·20 (R254). Safe: the spec names the error. -/
  | outputTooLong
  deriving DecidableEq, Repr

/-- Why a run is refused. No opcode-table row ends in one. -/
inductive Refusal where
  /-- Raised by an arm of `exec` whose instruction has no meaning yet. There is none. Safe: the run stops. -/
  | notModelled (mnemonic : String)
  /-- Raised by `step` on a transaction of a second bus master (R288: "a model refuses such a configuration"). Safe. -/
  | secondBusMaster
  /-- Raised by the host protocol on a message of 2^64 bits or more (R247: "a model refuses it"). Safe. -/
  | messageTooLong
  /-- Raised by the host driver on `next` while its own book says that H holds an ended message's state (R249). Safe. -/
  | nextAfterMessageEnd
  /-- Raised by a streaming context, the pure one or the one over the block, on `update` or `finalize` after `finalize`
  without `reset` (R249, U1). Safe. -/
  | contextFinalized
  deriving DecidableEq, Repr

/-- The machine at launch, right after its first reset: R49's values, FAULT empty (R48). The model's own fields hold what
log 3 names: nothing asked, nothing answered, no free value drawn. -/
def State.reset : State where
  h := iv
  block := Vector.replicate 16 0
  valid := false
  errBusy := false
  errCmd := false
  pend := none
  faults := []
  inputs := []
  resp := none
  wait := 0
  draws := 0

end Sys2Proof.Machine
end

