-- ==== Sys2Proof/Machine/Flags.lean ====
section
/-! DEFINITION. The STATUS register (spec/10_state.md R35): every computation of a flag. -/

namespace Sys2Proof.Machine

/-- STATUS.READY: no compression is pending (R36). -/
def State.ready (s : State) : Bool := s.pend.isNone

/-- BUSY, the name for READY = 0 (R36). -/
def State.busy (s : State) : Bool := s.pend.isSome

/-- One bit of STATUS at its place. -/
def statusBit (b : Bool) (place : Nat) : Word := (BitVec.ofBool b).setWidth 32 <<< place

/-- The value of STATUS; reserved bits are 0 (R35, R132). -/
def State.statusWord (s : State) : Word :=
  statusBit s.errCmd 9 ||| statusBit s.errBusy 8 ||| statusBit s.valid 1 ||| statusBit s.ready 0

/-- The hardware recording of an error: ERR_BUSY for E1, ERR_CMD for E2, no STATUS bit for E3 and E4 (R271). Both are
sticky (R38, R39). -/
def State.flagError (e : ErrorEvent) (s : State) : State :=
  match e with
  | .busyReject _ => { s with errBusy := true }
  | .illegalCmd _ => { s with errCmd := true }
  | .misaligned _ => s
  | .partialWrite _ _ => s

/-- CLRERR's effect on STATUS, the one return from an error short of reset (R176, R282). -/
def State.clearErrors (s : State) : State := { s with errBusy := false, errCmd := false }

end Sys2Proof.Machine
end

