-- ==== Sys2Proof/Machine/Operands.lean ====
section
/-! DEFINITION. How operands are read, how byte strings map onto words (spec/20_memory.md R72-R74), and where the window
sits on the platform's bus (R81). -/

namespace Sys2Proof.Machine

/-- be32: byte `b0` most significant (spec/00_scope.md R11). -/
def be32 (b0 b1 b2 b3 : Byte) : Word := b0 ++ b1 ++ b2 ++ b3

/-- bytes_be of a 32-bit word: four bytes, most significant first (R11). -/
def bytesBE (w : Word) : List Byte :=
  [w.extractLsb' 24 8, w.extractLsb' 16 8, w.extractLsb' 8 8, w.extractLsb' 0 8]

/-- be64: eight bytes, most significant first (spec/43_host_protocol.md R241). -/
def bytesBE64 (n : BitVec 64) : List Byte := bytesBE (n.extractLsb' 32 32) ++ bytesBE (n.extractLsb' 0 32)

/-- The block of the first 64 bytes of a byte string, big-endian (R43, R73, R206). -/
def blockOfBytes (bs : List Byte) : Block :=
  Vector.ofFn fun i =>
    be32 (bs.getD (4 * i.val) 0) (bs.getD (4 * i.val + 1) 0) (bs.getD (4 * i.val + 2) 0) (bs.getD (4 * i.val + 3) 0)

/-- The 20 bytes a chaining state stands for (R42, R74). -/
def chainBytes (c : Chain) : List Byte := c.toList.flatMap bytesBE

/-- H[i] as a read sees it: never a working value; while busy, what H held at acceptance (R47, R135). -/
def State.readH (i : Fin 5) (s : State) : Word := s.h[i]

/-- BLOCK[i] as a read sees it (R136). -/
def State.readBlock (i : Fin 16) (s : State) : Word := s.block[i]

/-- The window offset of a bus address, if it lies in the window; what the interconnect does with any other address is the
platform's (R81). -/
def busOffset (addr : Nat) : Option Offset :=
  if Config.base ≤ addr ∧ addr < Config.base + 128 then some (BitVec.ofNat 7 (addr - Config.base)) else none

end Sys2Proof.Machine
end

