-- ==== Sys2Proof/Machine/Ops.lean ====
section
/-! DEFINITION. The shared operations every meaning is written over: answering on the bus, raising an error and the busy
gate (spec/60_exceptions.md), writing registers, accepting a compression, and the steps of the datapath and of reset. -/

namespace Sys2Proof.Machine

/-! ### The bus -/

/-- The response of the transaction just performed (spec/30_encoding.md R113). -/
def State.respond (r : Response) (s : State) : State := { s with resp := some r }

/-- A read's response with RESP = OKAY. -/
def State.answerRead (d : Word) (s : State) : State := s.respond (.read .okay d)

/-- A write's response with RESP = OKAY. -/
def State.answerWrite (s : State) : State := s.respond (.write .okay)

/-- A refused read: SLVERR and RDATA = 0 (R113, R274). -/
def State.refuseRead (s : State) : State := s.respond (.read .slverr 0)

/-- A refused write: SLVERR (R113). -/
def State.refuseWrite (s : State) : State := s.respond (.write .slverr)

/-! ### Errors -/

/-- FAULT with one more event; a set (R48, R275; log 5). -/
def recordEvent (e : ErrorEvent) (faults : List ErrorEvent) : List ErrorEvent :=
  if e ∈ faults then faults else faults ++ [e]

/-- `raise E<n>(info)`, what this block has for taking an exception: the hardware recording of R271, the event added to
FAULT, and nothing else (R275). No state is saved and control goes nowhere (R281). -/
def State.raise (e : ErrorEvent) (s : State) : State :=
  { s.flagError e with faults := recordEvent e s.faults }

/-- The busy gate: while a compression is pending the action is rejected with E1, else it is performed (R173, R276). -/
def State.gated (addr : Offset) (act : State → State) (s : State) : State :=
  if s.busy then s.raise (.busyReject addr) else act s

/-! ### Registers -/

/-- An accepted write of H[i]: VALID is cleared, whatever the value (R142). -/
def State.writeH (i : Fin 5) (d : Word) (s : State) : State := { s with h := s.h.set i d, valid := false }

/-- An accepted write of BLOCK[i]; VALID is not affected (R143). -/
def State.writeBlock (i : Fin 16) (d : Word) (s : State) : State := { s with block := s.block.set i d }

/-- INIT's effect: H ← IV, VALID ← 0; BLOCK stays (R172). -/
def State.loadIv (s : State) : State := { s with h := iv, valid := false }

/-! ### The compression's acceptance and completion -/

/-- The acceptance of NEXT (from H) or FIRST (from IV): PEND takes the snapshot, READY and VALID fall, H stays (R174,
R175). The position of the completion is the next free value (R84; log 2). -/
def State.accept (hin : Chain) (s : State) : State :=
  { s with
    pend := some { hin := hin, m := s.block }
    valid := false
    wait := Config.completionWait s.draws
    draws := s.draws + 1 }

/-- The completion step, when one is pending: all five H words at once, PEND ← none (so READY ← 1), VALID ← 1, nothing
else (R218). -/
def State.complete (s : State) : State :=
  match s.pend with
  | none => s
  | some p => { s with h := compress p.hin p.m, pend := none, valid := true }

/-- The completion is the next step: one is pending and its free position is reached (R84, R218; log 2). -/
def State.due (s : State) : Bool := s.busy && s.wait == 0

/-- One step of the outside, or none, has passed: the pending completion is one step nearer (log 2). -/
def State.tick (s : State) : State := { s with wait := s.wait - 1 }

/-- The completion does not fall before the next step of the outside (log 1). -/
def State.holdOff (s : State) : State := if s.due then { s with wait := 1 } else s

/-! ### Reset -/

/-- Taking reset: every piece of state at R49's value, a compression in progress abandoned, FAULT unchanged (R300, R301).
What the outside does next and the count of free values are not the block's; no response is on the bus (log 4). -/
def State.takeReset (s : State) : State :=
  { State.reset with faults := s.faults, inputs := s.inputs, draws := s.draws }

/-! ### Which agent steps next -/

/-- The queue without its oldest input. -/
def State.popInput (s : State) : State := { s with inputs := s.inputs.tail }

/-- The next step (R30). Reset takes precedence over everything (R278; log 8). Then comes the completion, where its free
position is reached (R84, R218; log 2), then what the outside asks for (log 1, log 9). -/
def State.nextEvent (s : State) : Event :=
  match s.inputs with
  | .reset :: _ => .reset
  | .txn .owner w :: _ => if s.due then .completion else .transaction w
  | .txn .other _ :: _ => if s.due then .completion else .foreign
  | [] => if s.due then .completion else .idle

/-- A transaction word at the head of the queue, no completion before it (log 1). -/
def State.offer (w : TxnWord) (s : State) : State :=
  { s.holdOff with inputs := .txn .owner w :: s.inputs }

end Sys2Proof.Machine
end

