-- ==== Sys2Proof/Machine/BusReads.lean ====
section
/-! DEFINITION. The read transactions (spec/40_bus_access.md section 1). No read has a side effect (spec/20_memory.md
R79); none is blocked or gated (R130). -/

namespace Sys2Proof.Machine

/-- RD_CTRL: CTRL holds nothing (R131). -/
def execRdCtrl (s : State) : Host.Outcome State Fault Refusal := .next (s.answerRead 0)

/-- RD_STATUS (R132). -/
def execRdStatus (s : State) : Host.Outcome State Fault Refusal := .next (s.answerRead s.statusWord)

/-- RD_CORE_ID (R133). -/
def execRdCoreId (s : State) : Host.Outcome State Fault Refusal := .next (s.answerRead Config.coreId)

/-- RD_CORE_VERSION (R134). -/
def execRdCoreVersion (s : State) : Host.Outcome State Fault Refusal := .next (s.answerRead Config.coreVersion)

/-- RD_H0 (R135). -/
def execRdH0 (s : State) : Host.Outcome State Fault Refusal := .next (s.answerRead (s.readH 0))

/-- RD_H1 (R135). -/
def execRdH1 (s : State) : Host.Outcome State Fault Refusal := .next (s.answerRead (s.readH 1))

/-- RD_H2 (R135). -/
def execRdH2 (s : State) : Host.Outcome State Fault Refusal := .next (s.answerRead (s.readH 2))

/-- RD_H3 (R135). -/
def execRdH3 (s : State) : Host.Outcome State Fault Refusal := .next (s.answerRead (s.readH 3))

/-- RD_H4 (R135). -/
def execRdH4 (s : State) : Host.Outcome State Fault Refusal := .next (s.answerRead (s.readH 4))

/-- RD_BLOCK (R136). -/
def execRdBlock (i : Fin 16) (s : State) : Host.Outcome State Fault Refusal := .next (s.answerRead (s.readBlock i))

/-- RD_RSVD: reads 0, no error, at whichever reserved offset (R138). -/
def execRdRsvd (_a : BitVec 5) (s : State) : Host.Outcome State Fault Refusal := .next (s.answerRead 0)

/-- RD_MISALIGNED: E3, SLVERR, data 0 (R137). -/
def execRdMisaligned (addr : Offset) (s : State) : Host.Outcome State Fault Refusal :=
  .next (s.raise (.misaligned addr)).refuseRead

end Sys2Proof.Machine
end

