-- ==== Sys2Proof/Machine/BusWrites.lean ====
section
/-! DEFINITION. The write transactions other than commands (spec/40_bus_access.md section 2). A rejected write answers OKAY
(R142); a refused one answers SLVERR (R144, R145). -/

namespace Sys2Proof.Machine

/-- A write the block ignores: OKAY, no state changes, busy or not. -/
def ignoreWrite (s : State) : Host.Outcome State Fault Refusal := .next s.answerWrite

/-- A write of H[i] behind the busy gate (R142). -/
def writeChainWord (i : Fin 5) (d : Word) (s : State) : Host.Outcome State Fault Refusal :=
  .next (s.gated (hOffset i) (State.writeH i d)).answerWrite

/-- WR_STATUS: in particular writing 1s clears nothing (R139). -/
def execWrStatus (_d : Word) (s : State) : Host.Outcome State Fault Refusal := ignoreWrite s

/-- WR_CORE_ID (R140). -/
def execWrCoreId (_d : Word) (s : State) : Host.Outcome State Fault Refusal := ignoreWrite s

/-- WR_CORE_VERSION (R141). -/
def execWrCoreVersion (_d : Word) (s : State) : Host.Outcome State Fault Refusal := ignoreWrite s

/-- WR_H0 (R142). -/
def execWrH0 (d : Word) (s : State) : Host.Outcome State Fault Refusal := writeChainWord 0 d s

/-- WR_H1 (R142). -/
def execWrH1 (d : Word) (s : State) : Host.Outcome State Fault Refusal := writeChainWord 1 d s

/-- WR_H2 (R142). -/
def execWrH2 (d : Word) (s : State) : Host.Outcome State Fault Refusal := writeChainWord 2 d s

/-- WR_H3 (R142). -/
def execWrH3 (d : Word) (s : State) : Host.Outcome State Fault Refusal := writeChainWord 3 d s

/-- WR_H4 (R142). -/
def execWrH4 (d : Word) (s : State) : Host.Outcome State Fault Refusal := writeChainWord 4 d s

/-- WR_BLOCK (R143). -/
def execWrBlock (i : Fin 16) (d : Word) (s : State) : Host.Outcome State Fault Refusal :=
  .next (s.gated (blockOffset i) (State.writeBlock i d)).answerWrite

/-- WR_RSVD (R146). -/
def execWrRsvd (_a : BitVec 5) (_d : Word) (s : State) : Host.Outcome State Fault Refusal := ignoreWrite s

/-- WR_PARTIAL: E4 with the offset and the strobes, whatever the offset, busy or not (R145, R273). -/
def execWrPartial (strb : Strobe) (a : BitVec 5) (_d : Word) (s : State) : Host.Outcome State Fault Refusal :=
  .next (s.raise (.partialWrite (alignedOffset a) strb)).refuseWrite

/-- WR_MISALIGNED: E3 whatever the strobes, busy or not (R144, R272). -/
def execWrMisaligned (_strb : Strobe) (addr : Offset) (_d : Word) (s : State) : Host.Outcome State Fault Refusal :=
  .next (s.raise (.misaligned addr)).refuseWrite

end Sys2Proof.Machine
end

