-- ==== Sys2Proof/Machine/Commands.lean ====
section
/-! DEFINITION. The commands, full-strobe writes to CTRL (spec/41_commands.md). Every command answers OKAY (R170); INIT,
NEXT and FIRST stand behind the busy gate (R173). -/

namespace Sys2Proof.Machine

/-- CMD_NOP (R171). -/
def execCmdNop (s : State) : Host.Outcome State Fault Refusal := .next s.answerWrite

/-- CMD_INIT (R172). -/
def execCmdInit (s : State) : Host.Outcome State Fault Refusal :=
  .next (s.gated ctrlOffset State.loadIv).answerWrite

/-- CMD_NEXT: compress the block into the current state (R174). -/
def execCmdNext (s : State) : Host.Outcome State Fault Refusal :=
  .next (s.gated ctrlOffset (State.accept s.h)).answerWrite

/-- CMD_FIRST: compress the block from IV, whatever H holds; H stays until completion (R175). -/
def execCmdFirst (s : State) : Host.Outcome State Fault Refusal :=
  .next (s.gated ctrlOffset (State.accept iv)).answerWrite

/-- CMD_CLRERR, not gated; FAULT stays (R176). -/
def execCmdClrerr (s : State) : Host.Outcome State Fault Refusal := .next s.clearErrors.answerWrite

/-- CMD_ILLEGAL: E2 whatever the busy state (R178). -/
def execCmdIllegal (d : Word) (s : State) : Host.Outcome State Fault Refusal :=
  .next (s.raise (.illegalCmd d)).answerWrite

end Sys2Proof.Machine
end

