-- ==== Sys2Proof/Machine/Dispatch.lean ====
section
/-! DEFINITION. The dispatch: one arm for each row of spec/opcode_table.json. -/

namespace Sys2Proof.Machine

def exec (i : Instr) (s : State) : Host.Outcome State Fault Refusal :=
  match i with
  | .rdCtrl => Sys2Proof.Machine.execRdCtrl s
  | .rdStatus => Sys2Proof.Machine.execRdStatus s
  | .rdCoreId => Sys2Proof.Machine.execRdCoreId s
  | .rdCoreVersion => Sys2Proof.Machine.execRdCoreVersion s
  | .rdH0 => Sys2Proof.Machine.execRdH0 s
  | .rdH1 => Sys2Proof.Machine.execRdH1 s
  | .rdH2 => Sys2Proof.Machine.execRdH2 s
  | .rdH3 => Sys2Proof.Machine.execRdH3 s
  | .rdH4 => Sys2Proof.Machine.execRdH4 s
  | .rdBlock k => Sys2Proof.Machine.execRdBlock k s
  | .rdRsvd a => Sys2Proof.Machine.execRdRsvd a s
  | .rdMisaligned addr => Sys2Proof.Machine.execRdMisaligned addr s
  | .cmdNop => Sys2Proof.Machine.execCmdNop s
  | .cmdInit => Sys2Proof.Machine.execCmdInit s
  | .cmdNext => Sys2Proof.Machine.execCmdNext s
  | .cmdFirst => Sys2Proof.Machine.execCmdFirst s
  | .cmdClrerr => Sys2Proof.Machine.execCmdClrerr s
  | .cmdIllegal d => Sys2Proof.Machine.execCmdIllegal d s
  | .wrStatus d => Sys2Proof.Machine.execWrStatus d s
  | .wrCoreId d => Sys2Proof.Machine.execWrCoreId d s
  | .wrCoreVersion d => Sys2Proof.Machine.execWrCoreVersion d s
  | .wrH0 d => Sys2Proof.Machine.execWrH0 d s
  | .wrH1 d => Sys2Proof.Machine.execWrH1 d s
  | .wrH2 d => Sys2Proof.Machine.execWrH2 d s
  | .wrH3 d => Sys2Proof.Machine.execWrH3 d s
  | .wrH4 d => Sys2Proof.Machine.execWrH4 d s
  | .wrBlock k d => Sys2Proof.Machine.execWrBlock k d s
  | .wrRsvd a d => Sys2Proof.Machine.execWrRsvd a d s
  | .wrPartial strb a d => Sys2Proof.Machine.execWrPartial strb a d s
  | .wrMisaligned strb addr d => Sys2Proof.Machine.execWrMisaligned strb addr d s

end Sys2Proof.Machine
end

