-- ==== Sys2Proof/Machine/Step.lean ====
section
/-! DEFINITION. One step of the machine: the step of one agent of spec/10_state.md R30, chosen by plain data of State. -/

namespace Sys2Proof.Machine

/-- One atomic step (R12, R30): reset (R300), the completion (R218), or the host's next transaction, decoded and performed
(R130). With nothing asked and nothing due the block idles (log 1). A second bus master's transaction is refused (R288;
log 9). -/
def step (s : State) : Host.Outcome State Fault Refusal :=
  match s.nextEvent with
  | .reset => .next s.popInput.takeReset
  | .completion => .next s.complete
  | .transaction w => exec (decode w) s.popInput.tick
  | .foreign => .refused .secondBusMaster
  | .idle => .next s.tick

/-- The word at the head of the queue, no completion before it: the very next step performs it (log 1). -/
def State.withFetchWord (s : State) (nbits w : Nat) : State := s.offer (BitVec.ofNat 44 (w % 2 ^ nbits))

end Sys2Proof.Machine
end

