-- ==== Sys2Proof/Machine/Assembly.lean ====
section
/-! DEFINITION. The assembler's transactions and pseudo-instructions (spec/30_encoding.md R111, R112) and the bus primitives
of spec/00_scope.md R12, as words. -/

namespace Sys2Proof.Machine

/-- The names an assembly line may use for an offset (R111). -/
inductive RegName where
  | ctrl | status | coreId | coreVersion
  | chain (i : Fin 5)
  | block (i : Fin 16)
  deriving DecidableEq, Repr

/-- The offset of a named register (spec/10_state.md R33). -/
def RegName.offset : RegName → Offset
  | .ctrl => 0x00#7
  | .status => 0x04#7
  | .coreId => 0x08#7
  | .coreVersion => 0x0C#7
  | .chain i => hOffset i
  | .block i => blockOffset i

/-- `BusRead(off)`: the canonical read word (R12, R111). -/
def busRead (off : Offset) : TxnWord := assemble false 0b0000#4 off 0

/-- `BusWrite(off, strb, v)` (R12, R111). -/
def busWrite (off : Offset) (strb : Strobe) (v : Word) : TxnWord := assemble true strb off v

/-- One assembly line (R111). -/
inductive AsmLine where
  | rd (r : RegName)
  | rdAt (off : Offset)
  | wr (r : RegName) (imm : Word)
  | wrAt (off : Offset) (imm : Word)
  | wrStrobed (strb : Strobe) (off : Offset) (imm : Word)
  deriving DecidableEq, Repr

/-- The word of an assembly line (R111). -/
def AsmLine.word : AsmLine → TxnWord
  | .rd r => busRead r.offset
  | .rdAt off => busRead off
  | .wr r imm => busWrite r.offset 0b1111#4 imm
  | .wrAt off imm => busWrite off 0b1111#4 imm
  | .wrStrobed strb off imm => busWrite off strb imm

/-- `nop` (R112). -/
def asmNop : AsmLine := .wr .ctrl 0x0#32

/-- `init` (R112). -/
def asmInit : AsmLine := .wr .ctrl 0x1#32

/-- `next` (R112). -/
def asmNext : AsmLine := .wr .ctrl 0x2#32

/-- `first` (R112). -/
def asmFirst : AsmLine := .wr .ctrl 0x3#32

/-- `clrerr` (R112). -/
def asmClrerr : AsmLine := .wr .ctrl 0x4#32

/-- `ldblk v0, …, v15`: the sixteen words in index order (R112). -/
def asmLdblk (b : Block) : List AsmLine := (List.finRange 16).map fun i => .wr (.block i) b[i]

/-- `ldh v0, …, v4` (R112). -/
def asmLdh (saved : Chain) : List AsmLine := (List.finRange 5).map fun i => .wr (.chain i) saved[i]

/-- `rdh`: five reads, yielding H0..H4 (R112). -/
def asmRdh : List AsmLine := (List.finRange 5).map fun i => .rd (.chain i)

end Sys2Proof.Machine
end

