-- ==== Sys2Proof/Machine/HostProtocol.lean ====
section
/-! DEFINITION. What a host computes with the block, as functions on byte strings (spec/43_host_protocol.md): padding, SHA-1
of a message, the streaming context, HMAC-SHA1 and PBKDF2. The block checks none of it (section header there). -/

namespace Sys2Proof.Machine

/-- One outcome after another: the first stop ends the run. -/
def andThen {α β : Type} (o : Host.Outcome α Fault Refusal) (f : α → Host.Outcome β Fault Refusal) :
    Host.Outcome β Fault Refusal :=
  match o with
  | .next a => f a
  | .fault r => .fault r
  | .refused r => .refused r

/-! ### Padding (R241-R244) -/

/-- z, the least number of zero bytes with (n + 1 + z) mod 64 = 56 (R241). -/
def padZeros (n : Nat) : Nat := (119 - n % 64) % 64

/-- What follows a message of `n` bytes, the 64 bytes of an HMAC pad block counted in (R241, R242). -/
def paddingFor (n : Nat) : List Byte :=
  0x80#8 :: (List.replicate (padZeros n) 0x00#8 ++ bytesBE64 (BitVec.ofNat 64 (8 * n)))

/-- P(m) (R241). -/
def padMessage (m : List Byte) : List Byte := m ++ paddingFor m.length

/-- The first `k` 64-byte blocks of a byte string. -/
def takeBlocks : Nat → List Byte → List Block
  | 0, _ => []
  | k + 1, bs => blockOfBytes bs :: takeBlocks k (bs.drop 64)

/-- The whole 64-byte blocks of a byte string. -/
def wholeBlocks (bs : List Byte) : List Block := takeBlocks (bs.length / 64) bs

/-! ### Hashing one message (R245) -/

/-- Blocks compressed in order into a chaining state. -/
def foldBlocks (c : Chain) (blocks : List Block) : Chain := blocks.foldl compress c

/-- SHA-1(m), 20 bytes (R245). Total: the refusals of R247 stand in what calls it (log 18). -/
def sha1 (m : List Byte) : List Byte := chainBytes (foldBlocks iv (wholeBlocks (padMessage m)))

/-- Only messages with 8·n < 2^64 are admitted (R247). -/
def admittedLength (n : Nat) : Bool := decide (8 * n < 2 ^ 64)

/-- Hashing, refused for a message the spec does not admit (R247, D21). -/
def hashMessage (m : List Byte) : Host.Outcome (List Byte) Fault Refusal :=
  if admittedLength m.length then .next (sha1 m) else .refused .messageTooLong

/-! ### The streaming context (R248, R249; the Hash Engine's, outside the block) -/

/-- A context: the chaining state, fewer than 64 unconsumed bytes, the 64-bit bit counter (R242), and whether it has been
finalized (R249). -/
structure HashContext where
  state     : Chain
  buffer    : List Byte
  totalBits : BitVec 64
  finished  : Bool
  deriving DecidableEq, Repr

/-- `reset()`, and a new context: empty, from the initial state (R249, R49's ground). -/
def HashContext.new : HashContext := { state := iv, buffer := [], totalBits := 0, finished := false }

/-- Every whole block available is compressed, the rest kept; the counter counts each byte once (R242, C3). -/
def HashContext.absorb (bs : List Byte) (c : HashContext) : HashContext :=
  let pending := c.buffer ++ bs
  { c with
    state := foldBlocks c.state (wholeBlocks pending)
    buffer := pending.drop (64 * (pending.length / 64))
    totalBits := c.totalBits + BitVec.ofNat 64 (8 * bs.length) }

/-- `update(bytes)`, forbidden after `finalize` without `reset` (R249, U1); a message that would reach 2^64 bits is refused
(R247). -/
def HashContext.update (bs : List Byte) (c : HashContext) : Host.Outcome HashContext Fault Refusal :=
  if c.finished then .refused .contextFinalized
  else if 2 ^ 64 ≤ c.totalBits.toNat + 8 * bs.length then .refused .messageTooLong
  else .next (c.absorb bs)

/-- What `finalize` appends to the unconsumed bytes: R241's padding, with the counter's value as the length. -/
def finalPadding (buffered : Nat) (totalBits : BitVec 64) : List Byte :=
  0x80#8 :: (List.replicate (padZeros buffered) 0x00#8 ++ bytesBE64 totalBits)

/-- `finalize()`: the last blocks and the digest; forbidden on a context that was finalized and not reset (R249). -/
def HashContext.finalize (c : HashContext) : Host.Outcome (List Byte × HashContext) Fault Refusal :=
  if c.finished then .refused .contextFinalized
  else
    let final := foldBlocks c.state (wholeBlocks (c.buffer ++ finalPadding c.buffer.length c.totalBits))
    .next (chainBytes final, { c with state := final, buffer := [], finished := true })

/-- A whole message handed over in chunks. -/
def HashContext.updateAll : List (List Byte) → HashContext → Host.Outcome HashContext Fault Refusal
  | [], c => .next c
  | bs :: rest, c => andThen (c.update bs) (updateAll rest)

/-! ### HMAC-SHA1 (R250-R252) -/

/-- The key as one 64-byte block: hashed if longer than 64 bytes, then padded with zeros (R250). -/
def hmacKeyBlock (key : List Byte) : List Byte :=
  let k := if key.length > 64 then sha1 key else key
  k ++ List.replicate (64 - k.length) 0x00#8

/-- innerPad = key ⊕ 0x36^64 (R250). -/
def innerPad (key : List Byte) : List Byte := (hmacKeyBlock key).map (· ^^^ 0x36#8)

/-- outerPad = key ⊕ 0x5c^64 (R250). -/
def outerPad (key : List Byte) : List Byte := (hmacKeyBlock key).map (· ^^^ 0x5c#8)

/-- HMAC(key, message) (R251). -/
def hmacSha1 (key msg : List Byte) : List Byte := sha1 (outerPad key ++ sha1 (innerPad key ++ msg))

/-- HMAC, refused where one of its hashes is of a message the spec does not admit (R247, R251). -/
def hmacMessage (key msg : List Byte) : Host.Outcome (List Byte) Fault Refusal :=
  if admittedLength key.length && admittedLength (64 + msg.length) then .next (hmacSha1 key msg)
  else .refused .messageTooLong

/-- The blocks after a pad block: the message with a length that counts the pad's 64 bytes (R242, R251). -/
def blocksAfterPad (msg : List Byte) : List Block := wholeBlocks (msg ++ paddingFor (64 + msg.length))

/-- HMAC from the two precomputed states S_in and S_out, the pad blocks skipped (R252). -/
def hmacPrecomputed (key msg : List Byte) : List Byte :=
  let sIn := compress iv (blockOfBytes (innerPad key))
  let sOut := compress iv (blockOfBytes (outerPad key))
  let inner := chainBytes (foldBlocks sIn (blocksAfterPad msg))
  chainBytes (foldBlocks sOut (blocksAfterPad inner))

/-! ### PBKDF2-HMAC-SHA1 (R253, R254) -/

/-- Two buffers XORed; unequal lengths are the host's own fault (93_implementation_defined.md U3). -/
def xorBytes (x y : List Byte) : Host.Outcome (List Byte) Fault Refusal :=
  if x.length = y.length then .next (List.zipWith (· ^^^ ·) x y) else .fault .xorLengthMismatch

/-- `n` more iterations from U = `u` with the XOR so far `t` (R253). -/
def pbkdf2Iterate (password : List Byte) : Nat → List Byte → List Byte → Host.Outcome (List Byte) Fault Refusal
  | 0, _, t => .next t
  | n + 1, u, t =>
    let u' := hmacSha1 password u
    andThen (xorBytes t u') fun t' => pbkdf2Iterate password n u' t'

/-- salt ‖ be32(i), the message of U_1 (R253). -/
def pbkdf2Seed (salt : List Byte) (i : Nat) : List Byte := salt ++ bytesBE (BitVec.ofNat 32 i)

/-- T_i = U_1 ⊕ … ⊕ U_iterations (R253). -/
def pbkdf2Block (password salt : List Byte) (iterations i : Nat) : Host.Outcome (List Byte) Fault Refusal :=
  let u1 := hmacSha1 password (pbkdf2Seed salt i)
  pbkdf2Iterate password (iterations - 1) u1 u1

/-- T_1 ‖ … ‖ T_k (R253). -/
def pbkdf2Blocks (password salt : List Byte) (iterations : Nat) : Nat → Host.Outcome (List Byte) Fault Refusal
  | 0 => .next []
  | k + 1 =>
    andThen (pbkdf2Blocks password salt iterations k) fun done =>
      andThen (pbkdf2Block password salt iterations (k + 1)) fun t => .next (done ++ t)

/-- PBKDF2's preconditions (R254; log 15), then that its hashes are of messages the spec admits (R247). -/
def pbkdf2Checks (password salt : List Byte) (iterations outputLength : Nat) : Host.Outcome Unit Fault Refusal :=
  if iterations = 0 then .fault .noIterations
  else if password = [] then .fault .emptyPassword
  else if salt = [] then .fault .emptySalt
  else if (2 ^ 32 - 1) * 20 < outputLength then .fault .outputTooLong
  else if (admittedLength password.length && admittedLength (64 + (salt.length + 4))) = false then .refused .messageTooLong
  else .next ()

/-- How many blocks T_i an output of that length takes: ceil(outputLength / 20) (R253). -/
def pbkdf2BlockCount (outputLength : Nat) : Nat := (outputLength + 19) / 20

/-- PBKDF2, its preconditions checked first (R253, R254). -/
def pbkdf2 (password salt : List Byte) (iterations outputLength : Nat) : Host.Outcome (List Byte) Fault Refusal :=
  andThen (pbkdf2Checks password salt iterations outputLength) fun _ =>
    andThen (pbkdf2Blocks password salt iterations (pbkdf2BlockCount outputLength)) fun out =>
      .next (out.take outputLength)

end Sys2Proof.Machine
end

