-- ==== Sys2Proof/Machine/HostDriver.lean ====
section
/-! DEFINITION. The host at the bus: its sequences of transactions over the block, with the `wait` loop and the book it
keeps of a message's end (spec/43_host_protocol.md R240-R254, spec/30_encoding.md R112). -/

namespace Sys2Proof.Machine

/-- What a host does next: one assembly line's transaction, the polling loop `wait` (R112), or the note in its own book that
a message has ended (R249). -/
inductive HostOp where
  | txn (line : AsmLine)
  | wait
  | endMessage
  deriving DecidableEq, Repr

/-- A host at work: the block, the words its reads have yielded, and its own book: the indices of the H words that still
hold the state of a message that has ended (R249; log 13). -/
structure HostRun where
  core  : State
  reads : List Word
  stale : List (Fin 5)
  deriving DecidableEq, Repr

/-- One transaction of the host, answered before the next (R83): the block steps until it has taken it, which is one step,
or two if the completion falls before it (R84). -/
def transact (w : TxnWord) (s : State) : Host.Outcome State Fault Refusal :=
  let asked := { s with inputs := [.txn .owner w] }
  if asked.due then andThen (step asked) step else step asked

/-- The last response says READY = 1 (R112: `s[0] = 1`). -/
def answeredReady (s : State) : Bool :=
  match s.resp with
  | some (.read _ d) => d.getLsbD 0
  | _ => false

/-- `wait`: STATUS is read until it says READY (R112). The bound only makes the loop total: `s.wait + 1` reads always reach
READY (log 14). -/
def pollReady : Nat → State → Host.Outcome State Fault Refusal
  | 0, s => .next s
  | n + 1, s =>
    andThen (transact (AsmLine.word (.rd .status)) s) fun t =>
      if answeredReady t then .next t else pollReady n t

/-- The words a response yields to the host program: RDATA of a read (R111). -/
def yielded (r : Option Response) : List Word :=
  match r with
  | some (.read _ d) => [d]
  | _ => []

/-- The H words a transaction that is performed puts at a state of the host's own choice: all by `first` and `init`, one by
a write of H, so that a whole `ldh` frees all five (R249, R252; log 13). -/
def chosenWords : Instr → List (Fin 5)
  | .cmdFirst | .cmdInit => [0, 1, 2, 3, 4]
  | .wrH0 _ => [0]
  | .wrH1 _ => [1]
  | .wrH2 _ => [2]
  | .wrH3 _ => [3]
  | .wrH4 _ => [4]
  | _ => []

/-- The book after a transaction; one that the busy gate rejects frees no word (R249, R276). -/
def HostRun.book (i : Instr) (r : HostRun) : List (Fin 5) :=
  if r.core.busy && !r.core.due then r.stale else r.stale.filter fun k => !(chosenWords i).contains k

/-- One act of the host. A `next` while a word of H is an ended message's is refused (R249, D22). -/
def HostRun.act (op : HostOp) (r : HostRun) : Host.Outcome HostRun Fault Refusal :=
  match op with
  | .txn line =>
    let i := decode line.word
    if i == .cmdNext && !r.stale.isEmpty then .refused .nextAfterMessageEnd
    else andThen (transact line.word r.core) fun t => .next { core := t, reads := r.reads ++ yielded t.resp, stale := r.book i }
  | .wait => andThen (pollReady (r.core.wait + 1) r.core) fun t => .next { r with core := t }
  | .endMessage => .next { r with stale := [0, 1, 2, 3, 4] }

/-- A host's sequence of acts. -/
def runHost : List HostOp → HostRun → Host.Outcome HostRun Fault Refusal
  | [], r => .next r
  | op :: ops, r => andThen (r.act op) (runHost ops)

/-- One block: `wait`, `ldblk`, then the command (R245). -/
def blockOps (b : Block) (command : AsmLine) : List HostOp :=
  .wait :: ((asmLdblk b).map .txn ++ [.txn command])

/-- `wait`, then `rdh`: the chaining state read out (R245, R252). -/
def readoutOps : List HostOp := .wait :: asmRdh.map .txn

/-- Consecutive blocks of a message: `first` for its very first block, `next` for every other (R245). -/
def messageOps (begun : Bool) (blocks : List Block) : List HostOp :=
  match blocks with
  | [] => []
  | b :: rest => blockOps b (if begun then asmNext else asmFirst) ++ rest.flatMap (blockOps · asmNext)

/-- The last blocks of a message, its digest read out, and the note that it has ended (R245, R249). -/
def lastOps (begun : Bool) (blocks : List Block) : List HostOp := messageOps begun blocks ++ readoutOps ++ [.endMessage]

/-- The 20 bytes of the words just read out (R74, R245). -/
def HostRun.digest (r : HostRun) : List Byte := r.reads.flatMap bytesBE

/-- SHA-1 of a message by the host sequence; a message that is not admitted is refused before any transaction (R245,
R247). -/
def hashOnCore (m : List Byte) (r : HostRun) : Host.Outcome HostRun Fault Refusal :=
  if admittedLength m.length then runHost (lastOps false (wholeBlocks (padMessage m))) { r with reads := [] }
  else .refused .messageTooLong

/-! ### Streaming over the block (R248, R249): the driver buffers partial blocks, the chaining state stays in H -/

/-- A streaming context over the block: the host at work, fewer than 64 unconsumed bytes, the bit counter (R242), whether a
block of the message has been issued, and whether the context has been finalized (R249). -/
structure CoreContext where
  run       : HostRun
  buffer    : List Byte
  totalBits : BitVec 64
  begun     : Bool
  finished  : Bool
  deriving DecidableEq, Repr

/-- `reset()`, and a new context: empty. The next message's first block is issued with `first` (R249). -/
def CoreContext.new (r : HostRun) : CoreContext :=
  { run := r, buffer := [], totalBits := 0, begun := false, finished := false }

/-- `update(bytes)`: every whole block available is issued, in order; the rest is kept (R248). -/
def CoreContext.update (bs : List Byte) (c : CoreContext) : Host.Outcome CoreContext Fault Refusal :=
  if c.finished then .refused .contextFinalized
  else if 2 ^ 64 ≤ c.totalBits.toNat + 8 * bs.length then .refused .messageTooLong
  else
    let pending := c.buffer ++ bs
    let blocks := wholeBlocks pending
    andThen (runHost (messageOps c.begun blocks) c.run) fun r =>
      .next { c with
        run := r
        buffer := pending.drop (64 * (pending.length / 64))
        totalBits := c.totalBits + BitVec.ofNat 64 (8 * bs.length)
        begun := c.begun || !blocks.isEmpty }

/-- `finalize()`: the padded last blocks issued and the digest read out (R245, R248, R249). -/
def CoreContext.finalize (c : CoreContext) : Host.Outcome (List Byte × CoreContext) Fault Refusal :=
  if c.finished then .refused .contextFinalized
  else
    let blocks := wholeBlocks (c.buffer ++ finalPadding c.buffer.length c.totalBits)
    andThen (runHost (lastOps c.begun blocks) { c.run with reads := [] }) fun r =>
      .next (r.digest, { c with run := r, buffer := [], begun := true, finished := true })

/-- A whole message handed over in chunks. -/
def CoreContext.updateAll : List (List Byte) → CoreContext → Host.Outcome CoreContext Fault Refusal
  | [], c => .next c
  | bs :: rest, c => andThen (c.update bs) (updateAll rest)

/-! ### HMAC-SHA1 over the block (R250-R252) -/

/-- The state after one pad block, computed once and read out (R252). -/
def padStateOps (pad : List Byte) : List HostOp := blockOps (blockOfBytes pad) asmFirst ++ readoutOps

/-- A hash continued from a saved state: `ldh`, then every block with `next` (R252). -/
def continueOps (saved : Chain) (blocks : List Block) : List HostOp :=
  .wait :: ((asmLdh saved).map .txn ++ lastOps true blocks)

/-- Five words read out, as a chaining state. -/
def chainOfReads (words : List Word) : Chain := Vector.ofFn fun i => words.getD i.val 0

/-- The two saved states S_in and S_out (R252). -/
structure PadStates where
  inner : Chain
  outer : Chain
  deriving DecidableEq, Repr

/-- The key as HMAC uses it: one longer than a block is hashed on the block first (R250). -/
def shortKeyOnCore (key : List Byte) (r : HostRun) : Host.Outcome (List Byte × HostRun) Fault Refusal :=
  if key.length > 64 then andThen (hashOnCore key r) fun t => .next (t.digest, t) else .next (key, r)

/-- S_in and S_out of a key, each computed once on the block and saved (R252; the order of acts of 95_test_vectors.md P4). -/
def padStatesOnCore (key : List Byte) (r : HostRun) : Host.Outcome (PadStates × HostRun) Fault Refusal :=
  andThen (shortKeyOnCore key r) fun (k, r) =>
    andThen (runHost (padStateOps (innerPad k)) { r with reads := [] }) fun rIn =>
      andThen (runHost (padStateOps (outerPad k)) { rIn with reads := [] }) fun rOut =>
        .next ({ inner := chainOfReads rIn.reads, outer := chainOfReads rOut.reads }, rOut)

/-- HMAC of one message from the saved pad states: the inner hash, then the outer one (R251, R252). -/
def macOnCore (p : PadStates) (msg : List Byte) (r : HostRun) : Host.Outcome HostRun Fault Refusal :=
  andThen (runHost (continueOps p.inner (blocksAfterPad msg)) { r with reads := [] }) fun t =>
    runHost (continueOps p.outer (blocksAfterPad t.digest)) { t with reads := [] }

/-- HMAC-SHA1 on the block; a message whose length with the pad is not admitted is refused before any transaction (R247,
R251). -/
def hmacOnCore (key msg : List Byte) (r : HostRun) : Host.Outcome HostRun Fault Refusal :=
  if admittedLength (64 + msg.length) then andThen (padStatesOnCore key r) fun (p, t) => macOnCore p msg t
  else .refused .messageTooLong

/-! ### PBKDF2-HMAC-SHA1 over the block (R252-R254): the password's pad states are computed once per derivation -/

/-- `n` more iterations from U = `u` with the XOR so far `t`, each HMAC run on the block (R253). -/
def pbkdf2IterateOnCore (p : PadStates) :
    Nat → List Byte → List Byte → HostRun → Host.Outcome (List Byte × HostRun) Fault Refusal
  | 0, _, t, r => .next (t, r)
  | n + 1, u, t, r =>
    andThen (macOnCore p u r) fun r' =>
      andThen (xorBytes t r'.digest) fun t' => pbkdf2IterateOnCore p n r'.digest t' r'

/-- T_i, every U_j of it run on the block (R253). -/
def pbkdf2BlockOnCore (p : PadStates) (salt : List Byte) (iterations i : Nat) (r : HostRun) :
    Host.Outcome (List Byte × HostRun) Fault Refusal :=
  andThen (macOnCore p (pbkdf2Seed salt i) r) fun r' => pbkdf2IterateOnCore p (iterations - 1) r'.digest r'.digest r'

/-- T_1 ‖ … ‖ T_k on the block (R253). -/
def pbkdf2BlocksOnCore (p : PadStates) (salt : List Byte) (iterations : Nat) :
    Nat → HostRun → Host.Outcome (List Byte × HostRun) Fault Refusal
  | 0, r => .next ([], r)
  | k + 1, r =>
    andThen (pbkdf2BlocksOnCore p salt iterations k r) fun (done, r') =>
      andThen (pbkdf2BlockOnCore p salt iterations (k + 1) r') fun (t, r'') => .next (done ++ t, r'')

/-- PBKDF2 on the block: the preconditions before any transaction (R254), the pad states once, then the blocks (R252,
R253). -/
def pbkdf2OnCore (password salt : List Byte) (iterations outputLength : Nat) (r : HostRun) :
    Host.Outcome (List Byte × HostRun) Fault Refusal :=
  andThen (pbkdf2Checks password salt iterations outputLength) fun _ =>
    andThen (padStatesOnCore password r) fun (p, r') =>
      andThen (pbkdf2BlocksOnCore p salt iterations (pbkdf2BlockCount outputLength) r') fun (out, t) =>
        .next (out.take outputLength, t)

end Sys2Proof.Machine
end

