-- ==== Sys2Proof/Machine/Transaction.lean ====
section
/-! DEFINITION. R147's `step_txn` and R278's error priority, read off the transaction word by numeric offsets. The machine
does not use them: they are the spec's second account of what a transaction does, and statements hold `exec` against it. -/

namespace Sys2Proof.Machine

/-- `command(d)` (spec/41_commands.md R170): the illegal check first, then OP. -/
def commandEffect (d : Word) (s : State) : State :=
  if 5 ≤ d.toNat then s.raise (.illegalCmd d)
  else match d.toNat with
    | 0 => s
    | 1 => s.gated 0x00#7 State.loadIv
    | 2 => s.gated 0x00#7 (State.accept s.h)
    | 3 => s.gated 0x00#7 (State.accept iv)
    | _ => s.clearErrors

/-- RDATA of an aligned read at offset `a`. -/
def readData (a : Nat) (s : State) : Word :=
  if a = 0x04 then s.statusWord
  else if a = 0x08 then 0x53484131#32
  else if a = 0x0C then 0x00010000#32
  else if 0x20 ≤ a ∧ a ≤ 0x30 then s.h.toList.getD ((a - 0x20) / 4) 0
  else if 0x40 ≤ a then s.block.toList.getD ((a - 0x40) / 4) 0
  else 0

/-- The effect of an aligned full-strobe write of `d` at offset `a`. -/
def writeEffect (a : Nat) (d : Word) (s : State) : State :=
  if a = 0x00 then commandEffect d s
  else if 0x20 ≤ a ∧ a ≤ 0x30 then
    s.gated (BitVec.ofNat 7 a) fun s => { s with h := s.h.setIfInBounds ((a - 0x20) / 4) d, valid := false }
  else if 0x40 ≤ a then
    s.gated (BitVec.ofNat 7 a) fun s => { s with block := s.block.setIfInBounds ((a - 0x40) / 4) d }
  else s

/-- `step_txn(w)` (R147). -/
def stepTxn (w : TxnWord) (s : State) : State :=
  if (addrOf w).toNat % 4 ≠ 0 then
    let t := s.raise (.misaligned (addrOf w))
    if rwOf w then t.respond (.write .slverr) else t.respond (.read .slverr 0)
  else if rwOf w = false then s.respond (.read .okay (readData (addrOf w).toNat s))
  else if strbOf w ≠ 0b1111#4 then
    (s.raise (.partialWrite (addrOf w) (strbOf w))).respond (.write .slverr)
  else (writeEffect (addrOf w).toNat (wdataOf w) s).respond (.write .okay)

/-- The transaction is one of those the busy gate stops (R276). -/
def gatedWord (w : TxnWord) : Bool :=
  let a := (addrOf w).toNat
  (a == 0x00 && decide (1 ≤ (wdataOf w).toNat ∧ (wdataOf w).toNat ≤ 3)) || decide (0x20 ≤ a ∧ a ≤ 0x30) || decide (0x40 ≤ a)

/-- The one error a transaction raises, if any: the checks of R278 in their order. -/
def expectedError (w : TxnWord) (s : State) : Option ErrorEvent :=
  if (addrOf w).toNat % 4 ≠ 0 then some (.misaligned (addrOf w))
  else if rwOf w = false then none
  else if strbOf w ≠ 0b1111#4 then some (.partialWrite (addrOf w) (strbOf w))
  else if addrOf w = 0x00#7 ∧ 5 ≤ (wdataOf w).toNat then some (.illegalCmd (wdataOf w))
  else if gatedWord w ∧ s.pend ≠ none then some (.busyReject (addrOf w))
  else none

end Sys2Proof.Machine
end

