-- ==== Sys2Proof/Safety.lean ====
section
/-! DEFINITION. What counts as a safe run, and the invariant of the machine, in the terms the statements use. -/

namespace Sys2Proof.Machine

/-- "No error happened": FAULT is empty (spec/10_state.md R48, spec/60_exceptions.md R275). -/
def State.errorFree (s : State) : Bool := s.faults.isEmpty

/-- Only the instance's one host, and no reset, is in the queue (R83, R219, R288). -/
def State.hostOnly (s : State) : Prop := ∀ x ∈ s.inputs, ∃ w, x = .txn .owner w

/-- What every step keeps. -/
structure State.Inv (s : State) : Prop where
  /-- FAULT is a set (R48). -/
  faults_nodup : s.faults.Nodup
  /-- While busy VALID reads 0 (R132). -/
  busy_not_valid : s.pend ≠ none → s.valid = false
  /-- While busy BLOCK is the block being compressed (R46, R136). -/
  pend_block : ∀ p, s.pend = some p → p.m = s.block
  /-- While busy H is the captured state, or FIRST started from IV (R46, R47). -/
  pend_chain : ∀ p, s.pend = some p → p.hin = s.h ∨ p.hin = iv
  /-- A hardware error bit is never set without its event in FAULT (R271, R275). -/
  err_busy_recorded : s.errBusy = true → ∃ a, .busyReject a ∈ s.faults
  /-- Likewise for ERR_CMD. -/
  err_cmd_recorded : s.errCmd = true → ∃ d, .illegalCmd d ∈ s.faults
  /-- RDATA is 0 whenever RESP = SLVERR (R113). -/
  slverr_zero : ∀ d, s.resp = some (.read .slverr d) → d = 0

/-- The two states agree on everything but what the bus carries: no register, no STATUS bit, no PEND, no FAULT, no free
value differs. -/
def State.SameButResponse (s t : State) : Prop := t = { s with resp := t.resp }

/-- The two states agree on everything but what the bus carries and FAULT. -/
def State.SameButResponseAndFaults (s t : State) : Prop := t = { s with resp := t.resp, faults := t.faults }

/-- `t` holds the events of `s` and `e`, and no other: FAULT as the set it is (R275). -/
def faultsGain (e : ErrorEvent) (s t : State) : Prop := ∀ x, x ∈ t.faults ↔ x = e ∨ x ∈ s.faults

end Sys2Proof.Machine
end

