-- ==== Sys2Proof/Certificates/Slice0/Obligations.lean ====
section
/-! DEFINITION. The statements. Each one's docstring names the rule of spec/ it formalises. -/

open Sys2Proof Sys2Proof.Machine
open Host (Outcome)

/-! ### Encoding -/

/-- Decoding the word of a well-formed transaction gives it back, with every operand at every value its field admits
(R103-R107). -/
def Obligations.DecodeEncodeRoundTrip : Prop :=
  ∀ i : Instr, i.wellFormed = true → decode (encode i) = i

/-- Encoding what a word decodes to gives the word back, but for the bits the block ignores, STRB and WDATA of a read
(R102, R104). So no two words that differ elsewhere mean the same. -/
def Obligations.EncodeDecodeIsCanonical : Prop :=
  ∀ w : TxnWord, encode (decode w) = canonicalWord w

/-- Every word decodes to a term that meets its row's side condition (R106, R108). -/
def Obligations.DecodedIsWellFormed : Prop :=
  ∀ w : TxnWord, (decode w).wellFormed = true

/-- Reading the opcode map by ascending priority (R106, R107) decides the same transaction as testing the fields in R106's
order, for every word. -/
def Obligations.TableDecoderAgrees : Prop :=
  ∀ w : TxnWord, decodeByTable w = some (decode w)

/-- Within one priority no word hits two rows of the opcode map (R106). -/
def Obligations.RowsOfOnePriorityDisjoint : Prop :=
  ∀ w : TxnWord, opcodeTable.Pairwise fun r q => r.priority = q.priority → ¬(r.hits w = true ∧ q.hits w = true)

/-- The word of a well-formed transaction wins the row of its own mnemonic (R107). -/
def Obligations.EncodedWordWinsItsRow : Prop :=
  ∀ i : Instr, i.wellFormed = true → (winningRow (encode i)).map (·.mnemonic) = some i.mnemonic

/-- The worked encodings at the end of 30_encoding.md and words of 95_test_vectors.md section 2 decode to what they stand
for; a number with a bit above bit 43 is rejected by name (the model's choice, log 10). -/
def Obligations.SpecWordsDecode : Prop :=
  decode 0xfc061626380#44 = .wrBlock 0 0x61626380#32 ∧
  decode 0x00400000000#44 = .rdStatus ∧
  decode 0xfa067452301#44 = .wrH0 0x67452301#32 ∧
  decode 0xf8000000003#44 = .cmdFirst ∧
  decode 0x02100000000#44 = .rdMisaligned 0x21#7 ∧
  decode 0xfb4ffffffff#44 = .wrRsvd 0b01101#5 0xffffffff#32 ∧
  decode 0x9c000001234#44 = .wrPartial 0b0011#4 0b10000#5 0x1234#32 ∧
  decode 0xf8000000012#44 = .cmdIllegal 0x12#32 ∧
  ∀ n, 2 ^ 44 ≤ n → decodeNat n = .error .widerThanTransaction

/-! ### Reads -/

/-- RD_CTRL, RD_CORE_ID and RD_CORE_VERSION answer their constants in every state and change nothing (R131, R133, R134). -/
def Obligations.ConstantReads : Prop :=
  ∀ s : State,
    exec .rdCtrl s = .next { s with resp := some (.read .okay 0x00000000#32) } ∧
    exec .rdCoreId s = .next { s with resp := some (.read .okay 0x53484131#32) } ∧
    exec .rdCoreVersion s = .next { s with resp := some (.read .okay 0x00010000#32) }

/-- RD_STATUS answers READY at bit 0, VALID at bit 1, ERR_BUSY at bit 8, ERR_CMD at bit 9, every other bit 0, and clears
nothing (R132). -/
def Obligations.StatusRead : Prop :=
  ∀ s : State, ∃ d : Word,
    exec .rdStatus s = .next { s with resp := some (.read .okay d) } ∧
    ∀ b : Nat, d.getLsbD b =
      if b = 0 then s.pend.isNone else if b = 1 then s.valid
      else if b = 8 then s.errBusy else if b = 9 then s.errCmd else false

/-- RD_H0..RD_H4 answer H[i] as it stands, busy or not, and change nothing (R135). -/
def Obligations.ChainReads : Prop :=
  ∀ s : State,
    exec .rdH0 s = .next { s with resp := some (.read .okay s.h[0]) } ∧
    exec .rdH1 s = .next { s with resp := some (.read .okay s.h[1]) } ∧
    exec .rdH2 s = .next { s with resp := some (.read .okay s.h[2]) } ∧
    exec .rdH3 s = .next { s with resp := some (.read .okay s.h[3]) } ∧
    exec .rdH4 s = .next { s with resp := some (.read .okay s.h[4]) }

/-- RD_BLOCK answers BLOCK[i], busy or not, and changes nothing (R136). -/
def Obligations.BlockRead : Prop :=
  ∀ (k : Fin 16) (s : State), exec (.rdBlock k) s = .next { s with resp := some (.read .okay s.block[k]) }

/-- A reserved offset reads 0 and ignores a write, both with OKAY and no error (R138, R146). -/
def Obligations.ReservedAccesses : Prop :=
  ∀ (a : BitVec 5) (d : Word) (s : State),
    exec (.rdRsvd a) s = .next { s with resp := some (.read .okay 0x00000000#32) } ∧
    exec (.wrRsvd a d) s = .next { s with resp := some (.write .okay) }

/-- No read changes a register, a STATUS bit or PEND, and an aligned read records no event either (R79, R138). -/
def Obligations.ReadsHaveNoSideEffect : Prop :=
  ∀ (i : Instr) (s : State), i.isWrite = false →
    ∃ t, exec i s = .next t ∧ s.SameButResponseAndFaults t ∧
      ((∀ addr, i ≠ .rdMisaligned addr) → s.SameButResponse t)

/-! ### Writes -/

/-- Writes to STATUS, CORE_ID and CORE_VERSION are ignored with OKAY, busy or not (R139-R141). -/
def Obligations.ReadOnlyWritesIgnored : Prop :=
  ∀ (d : Word) (s : State),
    exec (.wrStatus d) s = .next { s with resp := some (.write .okay) } ∧
    exec (.wrCoreId d) s = .next { s with resp := some (.write .okay) } ∧
    exec (.wrCoreVersion d) s = .next { s with resp := some (.write .okay) }

/-- WR_H0..WR_H4: while busy, E1 with the register's offset, ERR_BUSY set, nothing else; else the one word takes the value,
the other four and everything else stay, and VALID falls. The answer is OKAY both times (R142). -/
def Obligations.ChainWrite : Prop :=
  ∀ (d : Word) (s : State) (k : Fin 5) (off : Offset) (i : Instr),
    (k, off, i) ∈ [((0 : Fin 5), 0x20#7, Instr.wrH0 d), (1, 0x24#7, .wrH1 d), (2, 0x28#7, .wrH2 d), (3, 0x2C#7, .wrH3 d),
      (4, 0x30#7, .wrH4 d)] →
    (s.pend = none → ∃ t, exec i s = .next t ∧
      t = { s with h := t.h, valid := false, resp := some (.write .okay) } ∧
      ∀ j : Fin 5, t.h[j] = if j = k then d else s.h[j]) ∧
    (s.pend ≠ none → ∃ t, exec i s = .next t ∧
      t = { s with errBusy := true, faults := t.faults, resp := some (.write .okay) } ∧
      faultsGain (.busyReject off) s t)

/-- WR_BLOCK: while busy, E1 with the register's offset; else the one word takes the value and everything else, VALID
included, stays. The answer is OKAY both times (R143). -/
def Obligations.BlockWrite : Prop :=
  ∀ (d : Word) (s : State) (k : Fin 16),
    (s.pend = none → ∃ t, exec (.wrBlock k d) s = .next t ∧
      t = { s with block := t.block, resp := some (.write .okay) } ∧
      ∀ j : Fin 16, t.block[j] = if j = k then d else s.block[j]) ∧
    (s.pend ≠ none → ∃ t, exec (.wrBlock k d) s = .next t ∧
      t = { s with errBusy := true, faults := t.faults, resp := some (.write .okay) } ∧
      faultsGain (.busyReject (BitVec.ofNat 7 (0x40 + 4 * k.val))) s t)

/-- A misaligned read or write is not performed, whatever the strobes and the state: SLVERR, read data 0, E3 with the
offset, no register or STATUS bit changed (R137, R144, R272). -/
def Obligations.MisalignedRefused : Prop :=
  ∀ (addr : Offset) (strb : Strobe) (d : Word) (s : State),
    (∃ t, exec (.rdMisaligned addr) s = .next t ∧
      t = { s with faults := t.faults, resp := some (.read .slverr 0x00000000#32) } ∧
      faultsGain (.misaligned addr) s t) ∧
    (∃ t, exec (.wrMisaligned strb addr d) s = .next t ∧
      t = { s with faults := t.faults, resp := some (.write .slverr) } ∧
      faultsGain (.misaligned addr) s t)

/-- An aligned write with a strobe clear is not performed, at any offset, busy or not: SLVERR, E4 with the offset and the
strobes, no register or STATUS bit changed (R145, R273). -/
def Obligations.PartialWriteRefused : Prop :=
  ∀ (strb : Strobe) (a : BitVec 5) (d : Word) (s : State),
    ∃ t, exec (.wrPartial strb a d) s = .next t ∧
      t = { s with faults := t.faults, resp := some (.write .slverr) } ∧
      faultsGain (.partialWrite (BitVec.ofNat 7 (4 * a.toNat)) strb) s t

/-- Writing H or BLOCK the same value twice has the effect of writing it once, rejected or not (R80). -/
def Obligations.IdempotentWrites : Prop :=
  ∀ (d : Word) (k : Fin 16) (i : Instr) (s : State),
    i ∈ [Instr.wrH0 d, .wrH1 d, .wrH2 d, .wrH3 d, .wrH4 d, .wrBlock k d] →
    ∃ t, exec i s = .next t ∧ exec i t = .next t

/-- Every accepted write of H or BLOCK is visible to the very next read, and an acceptance in the very next read of STATUS,
where no completion falls between (R84, R308). -/
def Obligations.WriteVisibleAtNextRead : Prop :=
  ∀ (d : Word) (k : Fin 16) (s : State), s.pend = none →
    (∀ w r, (w, r) ∈ [(Instr.wrH0 d, Instr.rdH0), (.wrH1 d, .rdH1), (.wrH2 d, .rdH2), (.wrH3 d, .rdH3), (.wrH4 d, .rdH4),
        (.wrBlock k d, .rdBlock k)] →
      ∃ t u, exec w s = .next t ∧ exec r t = .next u ∧ u.resp = some (.read .okay d)) ∧
    (∀ c, c ∈ [Instr.cmdNext, .cmdFirst] →
      ∃ t u v, exec c s = .next t ∧ exec .rdStatus t = .next u ∧ u.resp = some (.read .okay v) ∧ v.getLsbD 0 = false)

/-! ### Commands -/

/-- CMD_NOP changes nothing and is no error, also while busy (R171). -/
def Obligations.NopCommand : Prop :=
  ∀ s : State, exec .cmdNop s = .next { s with resp := some (.write .okay) }

/-- CMD_INIT: while busy, E1 at CTRL; else H takes IV and VALID falls, BLOCK and the error bits stay (R172). -/
def Obligations.InitCommand : Prop :=
  ∀ s : State,
    (s.pend = none → exec .cmdInit s =
      .next { s with
        h := #v[0x67452301#32, 0xEFCDAB89#32, 0x98BADCFE#32, 0x10325476#32, 0xC3D2E1F0#32]
        valid := false
        resp := some (.write .okay) }) ∧
    (s.pend ≠ none → ∃ t, exec .cmdInit s = .next t ∧
      t = { s with errBusy := true, faults := t.faults, resp := some (.write .okay) } ∧
      faultsGain (.busyReject 0x00#7) s t)

/-- CMD_NEXT: while busy, E1 at CTRL and the pending compression is unaffected; else PEND takes H and BLOCK, READY and
VALID fall, H stays, and the completion replaces H by Compress of what was captured (R174). When the completion falls is
the model's free value (log 2): `wait` and `draws` are left open here. -/
def Obligations.NextCommand : Prop :=
  ∀ s : State,
    (s.pend = none → ∃ t, exec .cmdNext s = .next t ∧
      t = { s with
        pend := some { hin := s.h, m := s.block }
        valid := false
        resp := some (.write .okay)
        wait := t.wait
        draws := t.draws } ∧
      t.ready = false ∧
      t.complete = { t with h := compress s.h s.block, pend := none, valid := true } ∧ t.complete.ready = true) ∧
    (s.pend ≠ none → ∃ t, exec .cmdNext s = .next t ∧
      t = { s with errBusy := true, faults := t.faults, resp := some (.write .okay) } ∧
      faultsGain (.busyReject 0x00#7) s t)

/-- CMD_FIRST: as CMD_NEXT but from IV, whatever H holds; H is not set to IV at acceptance (R175). When the completion
falls is the model's free value (log 2). -/
def Obligations.FirstCommand : Prop :=
  ∀ s : State,
    (s.pend = none → ∃ t, exec .cmdFirst s = .next t ∧
      t = { s with
        pend := some { hin := iv, m := s.block }
        valid := false
        resp := some (.write .okay)
        wait := t.wait
        draws := t.draws } ∧
      t.ready = false ∧
      t.complete = { t with h := compress iv s.block, pend := none, valid := true } ∧ t.complete.ready = true) ∧
    (s.pend ≠ none → ∃ t, exec .cmdFirst s = .next t ∧
      t = { s with errBusy := true, faults := t.faults, resp := some (.write .okay) } ∧
      faultsGain (.busyReject 0x00#7) s t)

/-- CMD_CLRERR clears both error bits, busy or not, and touches nothing else, FAULT included (R176). -/
def Obligations.ClrerrCommand : Prop :=
  ∀ s : State, exec .cmdClrerr s = .next { s with errBusy := false, errCmd := false, resp := some (.write .okay) }

/-- CMD_ILLEGAL sets ERR_CMD and records E2 with the value, busy or not, so ERR_BUSY does not change; nothing else does
(R178, R277). -/
def Obligations.IllegalCommand : Prop :=
  ∀ (d : Word) (s : State), ∃ t, exec (.cmdIllegal d) s = .next t ∧
    t = { s with errCmd := true, faults := t.faults, resp := some (.write .okay) } ∧
    faultsGain (.illegalCmd d) s t

/-- From a state that is not busy, `first` and `init; next` leave the same PEND and after completion the same H, READY and
VALID; in between, H is the pre-command value after `first` and IV after `init; next` (R177). That nothing else differs takes
in `wait` and `draws`, so that both acceptances draw the same free value: this is the model's own, no rule of the spec
(log 2). -/
def Obligations.FirstIsInitThenNext : Prop :=
  ∀ s : State, s.pend = none →
    ∃ u v, exec .cmdInit s = .next u ∧ exec .cmdNext u = .next v ∧ v.h = iv ∧
      exec .cmdFirst s = .next { v with h := s.h } ∧ ({ v with h := s.h } : State).complete = v.complete

/-! ### Whole transactions -/

/-- While a compression is pending every transaction of the opcode table is answered, and none changes H, BLOCK, VALID or
PEND (R46, R130, R276). Nor does one change `wait`, the model's own count of steps to the completion (log 2). -/
def Obligations.BusyGateProtectsDatapath : Prop :=
  ∀ (i : Instr) (s : State), s.pend ≠ none →
    ∃ t, exec i s = .next t ∧ t.h = s.h ∧ t.block = s.block ∧ t.valid = s.valid ∧ t.pend = s.pend ∧ t.wait = s.wait

/-- Every transaction returns RESP, a read RDATA too; SLVERR only for the misaligned and partial rows; RDATA is 0 whenever
RESP = SLVERR (R113). -/
def Obligations.ResponseOfEveryTransaction : Prop :=
  ∀ (i : Instr) (s : State), ∃ t r, exec i s = .next t ∧ t.resp = some r ∧
    (i.isWrite = true → ∃ p, r = .write p) ∧
    (i.isWrite = false → ∃ p d, r = .read p d) ∧
    (r = .write .slverr → (∃ strb a d, i = .wrPartial strb a d) ∨ (∃ strb addr d, i = .wrMisaligned strb addr d)) ∧
    (∀ d, r = .read .slverr d → d = 0 ∧ ∃ addr, i = .rdMisaligned addr)

/-- One transaction raises at most one error, the first that applies of E3, E4, E2, E1 (R278): `expectedError` reads it off
the word, and FAULT gains it and nothing else. -/
def Obligations.ErrorPriority : Prop :=
  ∀ (w : TxnWord) (s : State), ∃ t, exec (decode w) s = .next t ∧
    ∀ x, x ∈ t.faults ↔ expectedError w s = some x ∨ x ∈ s.faults

/-- The meaning of the decoded transaction is R147's `step_txn` of the word, for every word and every state. -/
def Obligations.TransactionStepFunction : Prop :=
  ∀ (w : TxnWord) (s : State), exec (decode w) s = .next (stepTxn w s)

/-! ### The machine's steps -/

/-- When the host's transaction heads the queue and no completion falls before it, the step is exec of the decoded
transaction, the word taken off the queue and the pending completion one step nearer (R130; the queue and the count of
steps are the model's, log 1 and log 2). -/
def Obligations.StepRunsDecodedTransaction : Prop :=
  ∀ (s : State) (w : TxnWord) (rest : List Input), s.inputs = .txn .owner w :: rest → (s.pend = none ∨ s.wait ≠ 0) →
    step s = exec (decode w) { s with inputs := rest, wait := s.wait - 1 }

/-- A word placed by `withFetchWord` is what the very next step runs, if it decodes (the model's loading of a word,
log 1). -/
def Obligations.FetchWordRunsNext : Prop :=
  ∀ (s : State) (nbits w : Nat) (i : Instr), decodeTableWord nbits w = some i →
    step (s.withFetchWord nbits w) = exec i { s with wait := s.wait - 1 }

/-- The completion: where one is pending, its free position is reached and no reset is asked for, the step puts Compress of
the captured pair into all five words of H, PEND ← none, READY ← 1, VALID ← 1, and changes nothing else; a step that is
no completion leaves H, VALID and PEND of a busy block alone (R218; the position and the queue are the model's, log 1,
log 2, log 8). -/
def Obligations.CompletionStep : Prop :=
  ∀ (s : State) (p : Pending), s.pend = some p → (∀ rest, s.inputs ≠ .reset :: rest) →
    (s.wait = 0 → step s = .next { s with h := compress p.hin p.m, pend := none, valid := true }) ∧
    (s.wait ≠ 0 → ∀ t, step s = .next t → t.h = s.h ∧ t.valid = s.valid ∧ t.pend = some p ∧ t.wait + 1 = s.wait)

/-- Completion is eventual and no transaction cancels it: with only its host at the bus and no reset, a busy block reaches
the state with Compress of the captured pair in H, in as many steps as its free value says (R219; the count of steps is the
model's, log 2). -/
def Obligations.CompletionIsEventual : Prop :=
  ∀ (s : State) (p : Pending), s.pend = some p → s.hostOnly →
    ∃ t, Host.Core.run Sys2Proof.core (s.wait + 1) s = .next t ∧
      t.h = compress p.hin p.m ∧ t.pend = none ∧ t.valid = true ∧ t.block = s.block

/-- Reset, taken in any state, busy or not: H ← IV, BLOCK ← 0, READY ← 1, VALID ← 0, both error bits ← 0, PEND ← none,
FAULT unchanged (R300, R301). -/
def Obligations.ResetStep : Prop :=
  ∀ (s : State) (rest : List Input), s.inputs = .reset :: rest →
    ∃ t, step s = .next t ∧
      t.h = #v[0x67452301#32, 0xEFCDAB89#32, 0x98BADCFE#32, 0x10325476#32, 0xC3D2E1F0#32] ∧
      (∀ k : Fin 16, t.block[k] = 0x00000000#32) ∧ t.ready = true ∧ t.valid = false ∧
      t.errBusy = false ∧ t.errCmd = false ∧ t.pend = none ∧ t.faults = s.faults

/-- The state at launch holds R49's values: a read of STATUS answers 1, H holds IV, every BLOCK word is 0, nothing is
pending and FAULT is empty (R48, R49). -/
def Obligations.ResetStateValues : Prop :=
  State.reset.statusWord = 0x00000001#32 ∧
  State.reset.h = #v[0x67452301#32, 0xEFCDAB89#32, 0x98BADCFE#32, 0x10325476#32, 0xC3D2E1F0#32] ∧
  (∀ k : Fin 16, State.reset.block[k] = 0x00000000#32) ∧ State.reset.pend = none ∧ State.reset.faults = []

/-- Every step keeps the machine's invariant: FAULT is a set, while busy VALID is 0 and BLOCK and H are what was captured,
no error bit stands without its event, a refused read's data is 0 (R46, R48, R113, R132, R271). -/
def Obligations.StepKeepsInvariant : Prop :=
  ∀ s t : State, s.Inv → step s = .next t → t.Inv

/-- The invariant holds at reset. -/
def Obligations.ResetHasInvariant : Prop := State.reset.Inv

/-- ERR_BUSY and ERR_CMD stay set over every step but reset and the transaction CLRERR (R38, R39). -/
def Obligations.ErrorBitsSticky : Prop :=
  ∀ s t : State, step s = .next t → s.nextEvent ≠ .reset →
    (∀ w, s.nextEvent = .transaction w → decode w ≠ .cmdClrerr) →
    (s.errBusy = true → t.errBusy = true) ∧ (s.errCmd = true → t.errCmd = true)

/-- No step, reset and CLRERR included, takes an event out of FAULT (R48, R275). -/
def Obligations.FaultsOnlyGrow : Prop :=
  ∀ s t : State, step s = .next t → ∀ x ∈ s.faults, x ∈ t.faults

/-- VALID is 1 after a step only if the step was a completion, with its result in H, or VALID was 1 before and the step
changed neither H nor PEND (R37). -/
def Obligations.ValidNeedsCompletion : Prop :=
  ∀ s t : State, step s = .next t → t.valid = true →
    (∃ p, s.pend = some p ∧ t.h = compress p.hin p.m ∧ t.pend = none) ∨
    (s.valid = true ∧ t.h = s.h ∧ t.pend = s.pend)

/-- The block stops for nothing its own host or reset can ask: every step is a next state, unless a second bus master's
transaction is the next event, which is refused by name (R130, R270, R288; log 9). -/
def Obligations.OnlySecondMasterStops : Prop :=
  ∀ s : State, (s.nextEvent ≠ .foreign → ∃ t, step s = .next t) ∧
    (s.nextEvent = .foreign → step s = .refused .secondBusMaster)

/-! ### The compression -/

/-- Ch takes each bit from y where x is 1 and from z where x is 0, Parity is the exclusive-or, Maj the majority bit
(R202-R204). -/
def Obligations.RoundFunctionsBitwise : Prop :=
  ∀ (x y z : Word) (b : Nat), b < 32 →
    (ch x y z).getLsbD b = (if x.getLsbD b then y.getLsbD b else z.getLsbD b) ∧
    (parity x y z).getLsbD b = ((x.getLsbD b ^^ y.getLsbD b) ^^ z.getLsbD b) ∧
    (maj x y z).getLsbD b =
      decide (2 ≤ (x.getLsbD b).toNat + (y.getLsbD b).toNat + (z.getLsbD b).toNat)

/-- The function and the constant of each of the four groups of twenty steps (R201, R205). -/
def Obligations.RoundGroups : Prop :=
  ∀ t : Nat,
    (t ≤ 19 → roundFunction t = ch ∧ roundConstant t = 0x5A827999#32) ∧
    (20 ≤ t → t ≤ 39 → roundFunction t = parity ∧ roundConstant t = 0x6ED9EBA1#32) ∧
    (40 ≤ t → t ≤ 59 → roundFunction t = maj ∧ roundConstant t = 0x8F1BBCDC#32) ∧
    (60 ≤ t → t ≤ 79 → roundFunction t = parity ∧ roundConstant t = 0xCA62C1D6#32)

/-- ROTL_n moves bit b to place (b + n) mod 32, for 0 < n < 32 (00_scope.md R11). -/
def Obligations.RotationMovesBits : Prop :=
  ∀ (n : Nat) (x : Word) (b : Nat), 0 < n → n < 32 → b < 32 →
    (rotl n x).getLsbD ((b + n) % 32) = x.getLsbD b

/-- The message schedule: the block's words, then the rotated exclusive-or of four earlier ones (R207). -/
def Obligations.MessageSchedule : Prop :=
  ∀ m : Block,
    (∀ t : Fin 16, scheduleWord m t.val = m[t]) ∧
    ∀ t : Nat, 16 ≤ t → t ≤ 79 →
      scheduleWord m t = rotl 1 (scheduleWord m (t - 3) ^^^ scheduleWord m (t - 8) ^^^ scheduleWord m (t - 14) ^^^
        scheduleWord m (t - 16))

/-- Compress is the initialisation, the steps t = 0..79 in increasing order, each from the values before it, and the
feed-forward (R209-R211). -/
def Obligations.CompressIsEightySteps : Prop :=
  ∀ (hin : Chain) (m : Block), ∃ v : Nat → Working,
    v 0 = ⟨hin[0], hin[1], hin[2], hin[3], hin[4]⟩ ∧
    (∀ t, t < 80 → v (t + 1) =
      ⟨rotl 5 (v t).a + roundFunction t (v t).b (v t).c (v t).d + (v t).e + roundConstant t + scheduleWord m t,
        (v t).a, rotl 30 (v t).b, (v t).c, (v t).d⟩) ∧
    compress hin m =
      #v[hin[0] + (v 80).a, hin[1] + (v 80).b, hin[2] + (v 80).c, hin[3] + (v 80).d, hin[4] + (v 80).e]

/-- A datapath that keeps sixteen schedule words in a circular buffer computes the same compression, for every input: a
consequence of its computing the same schedule words (R207, R208). -/
def Obligations.CircularBufferAgrees : Prop :=
  ∀ (hin : Chain) (m : Block), compressCircular hin m = compress hin m

/-- The spec's compression vectors (R215, R220), the two rows of all-ones blocks of 95_test_vectors.md section 2.1 among
them. -/
def Obligations.CompressVectors : Prop :=
  compress (Vector.replicate 5 0) (Vector.replicate 16 0) =
    #v[0x9e1547ed#32, 0x57ec91c2#32, 0x30fa8bc8#32, 0xc7785a54#32, 0xa7efa5e3#32] ∧
  compress iv (Vector.replicate 16 0) =
    #v[0x92b404e5#32, 0x56588ced#32, 0x6c1acd4e#32, 0xbf053f68#32, 0x09f73a93#32] ∧
  compress iv (#v[0x61626380#32, 0, 0, 0, 0, 0, 0, 0, 0, 0, 0, 0, 0, 0, 0, 0x18#32]) =
    #v[0xa9993e36#32, 0x4706816a#32, 0xba3e2571#32, 0x7850c26c#32, 0x9cd0d89d#32] ∧
  roundStep 0 0x61626380#32 (initWorking iv) =
    ⟨0x0116fc33#32, 0x67452301#32, 0x7bf36ae2#32, 0x98badcfe#32, 0x10325476#32⟩ ∧
  compress (Vector.replicate 5 0xFFFFFFFF#32) (Vector.replicate 16 0xFFFFFFFF#32) =
    #v[0x3f48159b#32, 0x2dce51fa#32, 0x8a1e930a#32, 0x02083b68#32, 0xef70d6e8#32] ∧
  compress iv (Vector.replicate 16 0xFFFFFFFF#32) =
    #v[0xbafbc2c8#32, 0x7c333226#32, 0x03f38e06#32, 0xc3e0f79c#32, 0x1f1b1475#32]

/-! ### The host's protocol -/

/-- Message byte k is bits [31 - 8(k mod 4) : 24 - 8(k mod 4)] of BLOCK[k div 4], and digest byte 4i + j is bits
[31 - 8j : 24 - 8j] of H[i] (R43, R73, R74). -/
def Obligations.ByteOrder : Prop :=
  (∀ bs : List Byte, bs.length = 64 → ∀ k : Fin 64,
    bs[k.val]? = some (((blockOfBytes bs)[k.val / 4]'(by omega)).extractLsb' (24 - 8 * (k.val % 4)) 8)) ∧
  (∀ h : Chain, (chainBytes h).length = 20 ∧ ∀ (i : Fin 5) (j : Fin 4),
    (chainBytes h)[4 * i.val + j.val]? = some (h[i].extractLsb' (24 - 8 * j.val) 8))

/-- The padded message is m, 0x80, z zero bytes and the 64-bit bit length, with z the least that makes (n + 1 + z) mod 64
= 56; its length is a multiple of 64 (R241). -/
def Obligations.PaddingIsLeast : Prop :=
  ∀ m : List Byte, ∃ z : Nat,
    padMessage m = m ++ [0x80#8] ++ List.replicate z 0x00#8 ++ bytesBE64 (BitVec.ofNat 64 (8 * m.length)) ∧
    (m.length + 1 + z) % 64 = 56 ∧ (∀ z', (m.length + 1 + z') % 64 = 56 → z ≤ z') ∧
    (padMessage m).length % 64 = 0

/-- The number of blocks of a padded message: floor(n / 64) + 1 if n mod 64 ≤ 55, else floor(n / 64) + 2 (R243). -/
def Obligations.PaddedBlockCount : Prop :=
  ∀ m : List Byte,
    (wholeBlocks (padMessage m)).length = if m.length % 64 ≤ 55 then m.length / 64 + 1 else m.length / 64 + 2

/-- Streaming equivalence: however an admitted message is cut into chunks, the digest is SHA-1 of the whole, of a context on
byte strings as of the driver that buffers partial blocks and issues each whole one to the block, from any state and with
any free value, which records no error; and a context that was finalized takes no further update and no second finalize
(R248, R249; the driver's book is log 13's, its polling bound log 14's, its queue log 17's). -/
def Obligations.StreamingEquivalence : Prop :=
  (∀ chunks : List (List Byte), 8 * chunks.flatten.length < 2 ^ 64 →
    ∃ c c', HashContext.updateAll chunks HashContext.new = .next c ∧ c.finalize = .next (sha1 chunks.flatten, c') ∧
      c'.finalize = .refused .contextFinalized ∧ ∀ bs, c'.update bs = .refused .contextFinalized) ∧
  ∀ (chunks : List (List Byte)) (r : HostRun), 8 * chunks.flatten.length < 2 ^ 64 →
    ∃ c c', CoreContext.updateAll chunks (CoreContext.new r) = .next c ∧ c.finalize = .next (sha1 chunks.flatten, c') ∧
      c'.run.core.faults = r.core.faults ∧
      c'.finalize = .refused .contextFinalized ∧ ∀ bs, c'.update bs = .refused .contextFinalized

/-- HMAC from the two precomputed pad states equals HMAC by its definition, for every key and message (R252). -/
def Obligations.PrecomputedPadsGiveHmac : Prop :=
  ∀ key msg : List Byte, hmacPrecomputed key msg = hmacSha1 key msg

/-- PBKDF2 answers exactly outputLength bytes whenever the preconditions hold and its messages are admitted (R247), and a
shorter request answers the first bytes
of a longer one (R253, R254; S7 of 95_test_vectors.md). -/
def Obligations.PbkdfOutputs : Prop :=
  ∀ (password salt : List Byte) (iterations len more : Nat),
    1 ≤ iterations → password ≠ [] → salt ≠ [] → len + more ≤ (2 ^ 32 - 1) * 20 →
    8 * password.length < 2 ^ 64 → 8 * (64 + (salt.length + 4)) < 2 ^ 64 →
    ∃ out, pbkdf2 password salt iterations (len + more) = .next out ∧ out.length = len + more ∧
      pbkdf2 password salt iterations len = .next (out.take len)

/-- What the spec forbids a host is refused or faulted by name: a message of 2^64 bits or more, hashed whole, in chunks or
under HMAC; `next` while a word of H is an ended message's, and a load of one word of H does not free it,
while `first`, `init` or the load of all five, on a block that is not busy, does; a PBKDF2 precondition violated, before any transaction (R247, R249, R254; the book of a message's end is log 13's, the order in
which PBKDF2's preconditions are tested log 15's). -/
def Obligations.HostMisuseStops : Prop :=
  (∀ (m : List Byte) (r : HostRun), 2 ^ 64 ≤ 8 * m.length →
    hashMessage m = .refused .messageTooLong ∧ hashOnCore m r = .refused .messageTooLong) ∧
  (∀ (c : HashContext) (bs : List Byte), c.finished = false → 2 ^ 64 ≤ c.totalBits.toNat + 8 * bs.length →
    c.update bs = .refused .messageTooLong) ∧
  (∀ (c : CoreContext) (bs : List Byte), c.finished = false → 2 ^ 64 ≤ c.totalBits.toNat + 8 * bs.length →
    c.update bs = .refused .messageTooLong) ∧
  (∀ (key msg : List Byte) (r : HostRun), 2 ^ 64 ≤ 8 * key.length ∨ 2 ^ 64 ≤ 8 * (64 + msg.length) →
    hmacMessage key msg = .refused .messageTooLong ∧ hmacOnCore key msg r = .refused .messageTooLong) ∧
  (∀ r : HostRun, r.stale ≠ [] → r.act (.txn asmNext) = .refused .nextAfterMessageEnd) ∧
  (∀ (r : HostRun) (k : Fin 5) (d : Word), ∃ t, runHost [.endMessage, .txn (.wr (.chain k) d)] r = .next t ∧
    t.act (.txn asmNext) = .refused .nextAfterMessageEnd) ∧
  (∀ (r : HostRun) (saved : Chain) (start : List HostOp),
    start ∈ [[.txn asmFirst], [.txn asmInit], (asmLdh saved).map .txn] →
    ∃ t, runHost (.endMessage :: .wait :: (start ++ [.wait, .txn asmNext])) r = .next t) ∧
  (∀ (password salt : List Byte) (iterations len : Nat),
    iterations = 0 ∨ password = [] ∨ salt = [] ∨ (2 ^ 32 - 1) * 20 < len →
    ∃ f, pbkdf2 password salt iterations len = .fault f ∧
      ∀ r : HostRun, pbkdf2OnCore password salt iterations len r = .fault f)

/-- The host sequence of R245, polling included, run over the block from any state, busy or not, with any free value, ends
with the digest read out equal to SHA-1 of the message, and records no error (R245, R247; the empty message of R246 is one
of these; the polling bound is log 14's, and the driver's transaction replaces the queue, so no reset falls inside,
log 17). -/
def Obligations.HashSequenceYieldsDigest : Prop :=
  ∀ (m : List Byte) (r : HostRun), 8 * m.length < 2 ^ 64 →
    ∃ t, hashOnCore m r = .next t ∧ t.reads.flatMap bytesBE = sha1 m ∧
      t.core.faults = r.core.faults ∧ t.core.pend = none ∧ t.core.valid = true

/-- HMAC-SHA1 run over the block with saved and restored pad states yields HMAC by its definition, and records no error
(R250-R252; a whole load of H frees the book, log 13; the polling bound is log 14's; no reset falls inside, log 17). -/
def Obligations.HmacSequenceYieldsHmac : Prop :=
  ∀ (key msg : List Byte) (r : HostRun), 8 * key.length < 2 ^ 64 → 8 * (64 + msg.length) < 2 ^ 64 →
    ∃ t, hmacOnCore key msg r = .next t ∧ t.reads.flatMap bytesBE = hmacSha1 key msg ∧ t.core.faults = r.core.faults

/-- PBKDF2 run over the block, the password's pad states computed once for the derivation, yields PBKDF2 by its definition,
and records no error (R252-R254; the book is log 13's, the polling bound log 14's; no reset falls inside, log 17). -/
def Obligations.PbkdfSequenceYieldsKey : Prop :=
  ∀ (password salt : List Byte) (iterations len : Nat) (r : HostRun),
    1 ≤ iterations → password ≠ [] → salt ≠ [] → len ≤ (2 ^ 32 - 1) * 20 →
    8 * password.length < 2 ^ 64 → 8 * (64 + (salt.length + 4)) < 2 ^ 64 →
    ∃ out t, pbkdf2OnCore password salt iterations len r = .next (out, t) ∧
      pbkdf2 password salt iterations len = .next out ∧ t.core.faults = r.core.faults
end

