-- ==== Sys2Proof/Laws/Encoding.lean ====
section
/-! SUPPORT. The four fields of an assembled word are the four fields it was assembled from, and no word holds more. -/

namespace Sys2Proof

theorem assemble_getLsbD (rw : Bool) (strb : Strobe) (addr : Offset) (d : Word) (i : Nat) :
    (assemble rw strb addr d).getLsbD i =
      if i < 32 then d.getLsbD i else if i < 39 then addr.getLsbD (i - 32)
      else if i < 43 then strb.getLsbD (i - 39) else (decide (i = 43) && rw) := by
  unfold assemble
  simp only [BitVec.getLsbD_append, BitVec.getLsbD_ofBool]
  by_cases h0 : i < 32
  · simp only [h0, if_true]
  · by_cases h1 : i < 39
    · rw [if_neg h0, if_pos (by omega), if_neg h0, if_pos h1]
    · by_cases h2 : i < 43
      · rw [if_neg h0, if_neg (by omega), if_pos (by omega), if_neg h0, if_neg h1, if_pos h2]
        congr 1
      · rw [if_neg h0, if_neg (by omega), if_neg (by omega), if_neg h0, if_neg h1, if_neg h2]
        congr 1
        exact decide_eq_decide.mpr (by omega)

@[simp] theorem rwOf_assemble (rw : Bool) (strb : Strobe) (addr : Offset) (d : Word) :
    rwOf (assemble rw strb addr d) = rw := by
  unfold rwOf
  rw [assemble_getLsbD]
  simp

@[simp] theorem strbOf_assemble (rw : Bool) (strb : Strobe) (addr : Offset) (d : Word) :
    strbOf (assemble rw strb addr d) = strb := by
  refine BitVec.eq_of_getLsbD_eq fun i hi => ?_
  simp only [strbOf, BitVec.getLsbD_extractLsb', assemble_getLsbD, hi, decide_true, Bool.true_and]
  rw [if_neg (by omega), if_neg (by omega), if_pos (by omega)]
  congr 1; omega

@[simp] theorem addrOf_assemble (rw : Bool) (strb : Strobe) (addr : Offset) (d : Word) :
    addrOf (assemble rw strb addr d) = addr := by
  refine BitVec.eq_of_getLsbD_eq fun i hi => ?_
  simp only [addrOf, BitVec.getLsbD_extractLsb', assemble_getLsbD, hi, decide_true, Bool.true_and]
  rw [if_neg (by omega), if_pos (by omega)]
  congr 1; omega

@[simp] theorem wdataOf_assemble (rw : Bool) (strb : Strobe) (addr : Offset) (d : Word) :
    wdataOf (assemble rw strb addr d) = d := by
  refine BitVec.eq_of_getLsbD_eq fun i hi => ?_
  simp only [wdataOf, BitVec.getLsbD_extractLsb', assemble_getLsbD, hi, decide_true, Bool.true_and]
  rw [if_pos (by omega)]
  congr 1; omega

/-- A word is its four fields. -/
theorem assemble_fields (w : TxnWord) : assemble (rwOf w) (strbOf w) (addrOf w) (wdataOf w) = w := by
  refine BitVec.eq_of_getLsbD_eq fun i hi => ?_
  rw [assemble_getLsbD]
  simp only [strbOf, addrOf, wdataOf, rwOf, BitVec.getLsbD_extractLsb']
  split
  · rename_i h; simp [h]
  · split
    · rename_i h1 h2
      rw [decide_eq_true (by omega), Bool.true_and]; congr 1; omega
    · split
      · rename_i h1 h2 h3
        rw [decide_eq_true (by omega), Bool.true_and]; congr 1; omega
      · have : i = 43 := by omega
        subst this; simp

end Sys2Proof
end

