-- ==== Sys2Proof/Laws/State.lean ====
section
/-! SUPPORT. One lemma for each field of State under each update of Machine/Ops.lean, so that no proof unfolds a record
update. -/

namespace Sys2Proof.Machine

/-! ### respond -/

@[simp] theorem State.respond_h (s : State) (r : Response) : (s.respond r).h = s.h := rfl
@[simp] theorem State.respond_block (s : State) (r : Response) : (s.respond r).block = s.block := rfl
@[simp] theorem State.respond_valid (s : State) (r : Response) : (s.respond r).valid = s.valid := rfl
@[simp] theorem State.respond_errBusy (s : State) (r : Response) : (s.respond r).errBusy = s.errBusy := rfl
@[simp] theorem State.respond_errCmd (s : State) (r : Response) : (s.respond r).errCmd = s.errCmd := rfl
@[simp] theorem State.respond_pend (s : State) (r : Response) : (s.respond r).pend = s.pend := rfl
@[simp] theorem State.respond_faults (s : State) (r : Response) : (s.respond r).faults = s.faults := rfl
@[simp] theorem State.respond_inputs (s : State) (r : Response) : (s.respond r).inputs = s.inputs := rfl
@[simp] theorem State.respond_resp (s : State) (r : Response) : (s.respond r).resp = some r := rfl
@[simp] theorem State.respond_wait (s : State) (r : Response) : (s.respond r).wait = s.wait := rfl
@[simp] theorem State.respond_draws (s : State) (r : Response) : (s.respond r).draws = s.draws := rfl

/-! ### clearErrors -/

@[simp] theorem State.clearErrors_h (s : State) : s.clearErrors.h = s.h := rfl
@[simp] theorem State.clearErrors_block (s : State) : s.clearErrors.block = s.block := rfl
@[simp] theorem State.clearErrors_valid (s : State) : s.clearErrors.valid = s.valid := rfl
@[simp] theorem State.clearErrors_errBusy (s : State) : s.clearErrors.errBusy = false := rfl
@[simp] theorem State.clearErrors_errCmd (s : State) : s.clearErrors.errCmd = false := rfl
@[simp] theorem State.clearErrors_pend (s : State) : s.clearErrors.pend = s.pend := rfl
@[simp] theorem State.clearErrors_faults (s : State) : s.clearErrors.faults = s.faults := rfl
@[simp] theorem State.clearErrors_inputs (s : State) : s.clearErrors.inputs = s.inputs := rfl
@[simp] theorem State.clearErrors_resp (s : State) : s.clearErrors.resp = s.resp := rfl
@[simp] theorem State.clearErrors_wait (s : State) : s.clearErrors.wait = s.wait := rfl
@[simp] theorem State.clearErrors_draws (s : State) : s.clearErrors.draws = s.draws := rfl

/-! ### writeH -/

@[simp] theorem State.writeH_h (s : State) (i : Fin 5) (d : Word) : (s.writeH i d).h = s.h.set i d := rfl
@[simp] theorem State.writeH_block (s : State) (i : Fin 5) (d : Word) : (s.writeH i d).block = s.block := rfl
@[simp] theorem State.writeH_valid (s : State) (i : Fin 5) (d : Word) : (s.writeH i d).valid = false := rfl
@[simp] theorem State.writeH_errBusy (s : State) (i : Fin 5) (d : Word) : (s.writeH i d).errBusy = s.errBusy := rfl
@[simp] theorem State.writeH_errCmd (s : State) (i : Fin 5) (d : Word) : (s.writeH i d).errCmd = s.errCmd := rfl
@[simp] theorem State.writeH_pend (s : State) (i : Fin 5) (d : Word) : (s.writeH i d).pend = s.pend := rfl
@[simp] theorem State.writeH_faults (s : State) (i : Fin 5) (d : Word) : (s.writeH i d).faults = s.faults := rfl
@[simp] theorem State.writeH_inputs (s : State) (i : Fin 5) (d : Word) : (s.writeH i d).inputs = s.inputs := rfl
@[simp] theorem State.writeH_resp (s : State) (i : Fin 5) (d : Word) : (s.writeH i d).resp = s.resp := rfl
@[simp] theorem State.writeH_wait (s : State) (i : Fin 5) (d : Word) : (s.writeH i d).wait = s.wait := rfl
@[simp] theorem State.writeH_draws (s : State) (i : Fin 5) (d : Word) : (s.writeH i d).draws = s.draws := rfl

/-! ### writeBlock -/

@[simp] theorem State.writeBlock_h (s : State) (i : Fin 16) (d : Word) : (s.writeBlock i d).h = s.h := rfl
@[simp] theorem State.writeBlock_block (s : State) (i : Fin 16) (d : Word) : (s.writeBlock i d).block = s.block.set i d := rfl
@[simp] theorem State.writeBlock_valid (s : State) (i : Fin 16) (d : Word) : (s.writeBlock i d).valid = s.valid := rfl
@[simp] theorem State.writeBlock_errBusy (s : State) (i : Fin 16) (d : Word) : (s.writeBlock i d).errBusy = s.errBusy := rfl
@[simp] theorem State.writeBlock_errCmd (s : State) (i : Fin 16) (d : Word) : (s.writeBlock i d).errCmd = s.errCmd := rfl
@[simp] theorem State.writeBlock_pend (s : State) (i : Fin 16) (d : Word) : (s.writeBlock i d).pend = s.pend := rfl
@[simp] theorem State.writeBlock_faults (s : State) (i : Fin 16) (d : Word) : (s.writeBlock i d).faults = s.faults := rfl
@[simp] theorem State.writeBlock_inputs (s : State) (i : Fin 16) (d : Word) : (s.writeBlock i d).inputs = s.inputs := rfl
@[simp] theorem State.writeBlock_resp (s : State) (i : Fin 16) (d : Word) : (s.writeBlock i d).resp = s.resp := rfl
@[simp] theorem State.writeBlock_wait (s : State) (i : Fin 16) (d : Word) : (s.writeBlock i d).wait = s.wait := rfl
@[simp] theorem State.writeBlock_draws (s : State) (i : Fin 16) (d : Word) : (s.writeBlock i d).draws = s.draws := rfl

/-! ### loadIv -/

@[simp] theorem State.loadIv_h (s : State) : s.loadIv.h = iv := rfl
@[simp] theorem State.loadIv_block (s : State) : s.loadIv.block = s.block := rfl
@[simp] theorem State.loadIv_valid (s : State) : s.loadIv.valid = false := rfl
@[simp] theorem State.loadIv_errBusy (s : State) : s.loadIv.errBusy = s.errBusy := rfl
@[simp] theorem State.loadIv_errCmd (s : State) : s.loadIv.errCmd = s.errCmd := rfl
@[simp] theorem State.loadIv_pend (s : State) : s.loadIv.pend = s.pend := rfl
@[simp] theorem State.loadIv_faults (s : State) : s.loadIv.faults = s.faults := rfl
@[simp] theorem State.loadIv_inputs (s : State) : s.loadIv.inputs = s.inputs := rfl
@[simp] theorem State.loadIv_resp (s : State) : s.loadIv.resp = s.resp := rfl
@[simp] theorem State.loadIv_wait (s : State) : s.loadIv.wait = s.wait := rfl
@[simp] theorem State.loadIv_draws (s : State) : s.loadIv.draws = s.draws := rfl

/-! ### accept -/

@[simp] theorem State.accept_h (s : State) (hin : Chain) : (s.accept hin).h = s.h := rfl
@[simp] theorem State.accept_block (s : State) (hin : Chain) : (s.accept hin).block = s.block := rfl
@[simp] theorem State.accept_valid (s : State) (hin : Chain) : (s.accept hin).valid = false := rfl
@[simp] theorem State.accept_errBusy (s : State) (hin : Chain) : (s.accept hin).errBusy = s.errBusy := rfl
@[simp] theorem State.accept_errCmd (s : State) (hin : Chain) : (s.accept hin).errCmd = s.errCmd := rfl
@[simp] theorem State.accept_pend (s : State) (hin : Chain) : (s.accept hin).pend = some { hin := hin, m := s.block } := rfl
@[simp] theorem State.accept_faults (s : State) (hin : Chain) : (s.accept hin).faults = s.faults := rfl
@[simp] theorem State.accept_inputs (s : State) (hin : Chain) : (s.accept hin).inputs = s.inputs := rfl
@[simp] theorem State.accept_resp (s : State) (hin : Chain) : (s.accept hin).resp = s.resp := rfl
@[simp] theorem State.accept_wait (s : State) (hin : Chain) : (s.accept hin).wait = Config.completionWait s.draws := rfl
@[simp] theorem State.accept_draws (s : State) (hin : Chain) : (s.accept hin).draws = s.draws + 1 := rfl

/-! ### tick -/

@[simp] theorem State.tick_h (s : State) : s.tick.h = s.h := rfl
@[simp] theorem State.tick_block (s : State) : s.tick.block = s.block := rfl
@[simp] theorem State.tick_valid (s : State) : s.tick.valid = s.valid := rfl
@[simp] theorem State.tick_errBusy (s : State) : s.tick.errBusy = s.errBusy := rfl
@[simp] theorem State.tick_errCmd (s : State) : s.tick.errCmd = s.errCmd := rfl
@[simp] theorem State.tick_pend (s : State) : s.tick.pend = s.pend := rfl
@[simp] theorem State.tick_faults (s : State) : s.tick.faults = s.faults := rfl
@[simp] theorem State.tick_inputs (s : State) : s.tick.inputs = s.inputs := rfl
@[simp] theorem State.tick_resp (s : State) : s.tick.resp = s.resp := rfl
@[simp] theorem State.tick_wait (s : State) : s.tick.wait = s.wait - 1 := rfl
@[simp] theorem State.tick_draws (s : State) : s.tick.draws = s.draws := rfl

/-! ### popInput -/

@[simp] theorem State.popInput_h (s : State) : s.popInput.h = s.h := rfl
@[simp] theorem State.popInput_block (s : State) : s.popInput.block = s.block := rfl
@[simp] theorem State.popInput_valid (s : State) : s.popInput.valid = s.valid := rfl
@[simp] theorem State.popInput_errBusy (s : State) : s.popInput.errBusy = s.errBusy := rfl
@[simp] theorem State.popInput_errCmd (s : State) : s.popInput.errCmd = s.errCmd := rfl
@[simp] theorem State.popInput_pend (s : State) : s.popInput.pend = s.pend := rfl
@[simp] theorem State.popInput_faults (s : State) : s.popInput.faults = s.faults := rfl
@[simp] theorem State.popInput_inputs (s : State) : s.popInput.inputs = s.inputs.tail := rfl
@[simp] theorem State.popInput_resp (s : State) : s.popInput.resp = s.resp := rfl
@[simp] theorem State.popInput_wait (s : State) : s.popInput.wait = s.wait := rfl
@[simp] theorem State.popInput_draws (s : State) : s.popInput.draws = s.draws := rfl

/-! ### takeReset -/

@[simp] theorem State.takeReset_h (s : State) : s.takeReset.h = iv := rfl
@[simp] theorem State.takeReset_block (s : State) : s.takeReset.block = Vector.replicate 16 0 := rfl
@[simp] theorem State.takeReset_valid (s : State) : s.takeReset.valid = false := rfl
@[simp] theorem State.takeReset_errBusy (s : State) : s.takeReset.errBusy = false := rfl
@[simp] theorem State.takeReset_errCmd (s : State) : s.takeReset.errCmd = false := rfl
@[simp] theorem State.takeReset_pend (s : State) : s.takeReset.pend = none := rfl
@[simp] theorem State.takeReset_faults (s : State) : s.takeReset.faults = s.faults := rfl
@[simp] theorem State.takeReset_inputs (s : State) : s.takeReset.inputs = s.inputs := rfl
@[simp] theorem State.takeReset_resp (s : State) : s.takeReset.resp = none := rfl
@[simp] theorem State.takeReset_wait (s : State) : s.takeReset.wait = 0 := rfl
@[simp] theorem State.takeReset_draws (s : State) : s.takeReset.draws = s.draws := rfl

/-! ### raise -/

@[simp] theorem State.raise_h (s : State) (e : ErrorEvent) : (s.raise e).h = s.h := by cases e <;> rfl
@[simp] theorem State.raise_block (s : State) (e : ErrorEvent) : (s.raise e).block = s.block := by cases e <;> rfl
@[simp] theorem State.raise_valid (s : State) (e : ErrorEvent) : (s.raise e).valid = s.valid := by cases e <;> rfl
@[simp] theorem State.raise_pend (s : State) (e : ErrorEvent) : (s.raise e).pend = s.pend := by cases e <;> rfl
@[simp] theorem State.raise_inputs (s : State) (e : ErrorEvent) : (s.raise e).inputs = s.inputs := by cases e <;> rfl
@[simp] theorem State.raise_resp (s : State) (e : ErrorEvent) : (s.raise e).resp = s.resp := by cases e <;> rfl
@[simp] theorem State.raise_wait (s : State) (e : ErrorEvent) : (s.raise e).wait = s.wait := by cases e <;> rfl
@[simp] theorem State.raise_draws (s : State) (e : ErrorEvent) : (s.raise e).draws = s.draws := by cases e <;> rfl
@[simp] theorem State.raise_faults (s : State) (e : ErrorEvent) : (s.raise e).faults = recordEvent e s.faults := rfl
@[simp] theorem State.raise_busyReject_errBusy (s : State) (a : Offset) : (s.raise (.busyReject a)).errBusy = true := rfl
@[simp] theorem State.raise_busyReject_errCmd (s : State) (a : Offset) : (s.raise (.busyReject a)).errCmd = s.errCmd := rfl
@[simp] theorem State.raise_illegalCmd_errBusy (s : State) (d : Word) : (s.raise (.illegalCmd d)).errBusy = s.errBusy := rfl
@[simp] theorem State.raise_illegalCmd_errCmd (s : State) (d : Word) : (s.raise (.illegalCmd d)).errCmd = true := rfl
@[simp] theorem State.raise_misaligned_errBusy (s : State) (a : Offset) : (s.raise (.misaligned a)).errBusy = s.errBusy := rfl
@[simp] theorem State.raise_misaligned_errCmd (s : State) (a : Offset) : (s.raise (.misaligned a)).errCmd = s.errCmd := rfl
@[simp] theorem State.raise_partialWrite_errBusy (s : State) (a : Offset) (b : Strobe) :
    (s.raise (.partialWrite a b)).errBusy = s.errBusy := rfl
@[simp] theorem State.raise_partialWrite_errCmd (s : State) (a : Offset) (b : Strobe) :
    (s.raise (.partialWrite a b)).errCmd = s.errCmd := rfl

end Sys2Proof.Machine
end

