-- ==== Sys2Proof/Laws/Ops.lean ====
section
/-! SUPPORT. One lemma for each shared operation that says everything it can do; proofs cite these and do not unfold the
operation. -/

namespace Sys2Proof.Machine

/-! ### The error record -/

theorem mem_recordEvent {x e : ErrorEvent} {l : List ErrorEvent} : x ∈ recordEvent e l ↔ x = e ∨ x ∈ l := by
  unfold recordEvent
  split
  · constructor
    · exact Or.inr
    · rintro (rfl | h) <;> assumption
  · simp [or_comm]

theorem nodup_recordEvent {e : ErrorEvent} {l : List ErrorEvent} (h : l.Nodup) : (recordEvent e l).Nodup := by
  unfold recordEvent
  split
  · exact h
  · rename_i he
    refine List.nodup_append.mpr ⟨h, by simp, ?_⟩
    intro a ha b hb
    simp only [List.mem_singleton] at hb
    subst hb
    exact fun hab => he (hab ▸ ha)

theorem recordEvent_of_mem {e : ErrorEvent} {l : List ErrorEvent} (h : e ∈ l) : recordEvent e l = l := if_pos h

theorem recordEvent_twice (e : ErrorEvent) (l : List ErrorEvent) : recordEvent e (recordEvent e l) = recordEvent e l :=
  recordEvent_of_mem (mem_recordEvent.mpr (.inl rfl))

/-! ### READY, BUSY and the gate -/

theorem State.busy_iff (s : State) : s.busy = true ↔ s.pend ≠ none := by
  unfold State.busy; cases s.pend <;> simp

theorem State.ready_iff (s : State) : s.ready = true ↔ s.pend = none := by
  unfold State.ready; cases s.pend <;> simp

/-- The gate performs the action on a block that is not busy. -/
theorem State.gated_of_ready {s : State} (h : s.pend = none) (a : Offset) (act : State → State) :
    s.gated a act = act s := by
  simp [State.gated, State.busy, h]

/-- The gate rejects with E1 on a busy block. -/
theorem State.gated_of_busy {s : State} (h : s.pend ≠ none) (a : Offset) (act : State → State) :
    s.gated a act = s.raise (.busyReject a) := by
  simp [State.gated, (State.busy_iff s).mpr h]

/-! ### The completion -/

theorem State.complete_of_none {s : State} (h : s.pend = none) : s.complete = s := by
  simp [State.complete, h]

theorem State.complete_of_some {s : State} {p : Pending} (h : s.pend = some p) :
    s.complete = { s with h := compress p.hin p.m, pend := none, valid := true } := by
  simp [State.complete, h]

theorem State.due_iff (s : State) : s.due = true ↔ s.pend ≠ none ∧ s.wait = 0 := by
  simp [State.due, State.busy_iff]

theorem State.due_of_none {s : State} (h : s.pend = none) : s.due = false := by
  simp [State.due, State.busy, h]

theorem State.holdOff_not_due (s : State) : s.holdOff.due = false := by
  unfold State.holdOff
  split
  · simp [State.due]
  · rename_i h; simpa using h

theorem State.holdOff_tick (s : State) : s.holdOff.tick = s.tick := by
  unfold State.holdOff
  split
  · rename_i h
    have := (State.due_iff s).mp h
    simp [State.tick, this.2]
  · rfl

end Sys2Proof.Machine
end

