-- ==== Sys2Proof/Laws/Exec.lean ====
section
/-! SUPPORT. What a transaction can do, said once for the whole opcode table. -/

namespace Sys2Proof.Machine

/-- The effect of a transaction on the block, its answer aside: none, an error raised, the error bits cleared, or, on a
block that is not busy, one of the writes of the datapath's state. -/
inductive Effect (s : State) : State → Prop where
  | none : Effect s s
  | error (e : ErrorEvent) : Effect s (s.raise e)
  | clear : Effect s s.clearErrors
  | writeH (i : Fin 5) (d : Word) (ready : s.pend = .none) : Effect s (s.writeH i d)
  | writeBlock (i : Fin 16) (d : Word) (ready : s.pend = .none) : Effect s (s.writeBlock i d)
  | loadIv (ready : s.pend = .none) : Effect s s.loadIv
  | accept (hin : Chain) (ready : s.pend = .none) (from_h_or_iv : hin = s.h ∨ hin = iv) : Effect s (s.accept hin)

/-- Behind the gate an action happens on a block that is not busy, else E1 is raised. -/
theorem effect_gated {s : State} (a : Offset) (act : State → State) (h : s.pend = none → Effect s (act s)) :
    Effect s (s.gated a act) := by
  by_cases hp : s.pend = none
  · rw [State.gated_of_ready hp]; exact h hp
  · rw [State.gated_of_busy hp]; exact .error _

/-- Every transaction is answered, with one effect and one response; a refused read's data is 0. -/
theorem exec_effect (i : Instr) (s : State) :
    ∃ u r, exec i s = .next (u.respond r) ∧ Effect s u ∧ ∀ d, r = .read .slverr d → d = 0 := by
  have ok (d : Word) (e : Word) : Response.read .okay d = .read .slverr e → e = 0 := by simp
  have wr (p : Resp) (e : Word) : Response.write p = .read .slverr e → e = 0 := by simp
  have refused (e : Word) : Response.read .slverr 0 = .read .slverr e → e = 0 := by
    intro h; cases h; rfl
  cases i
  case rdMisaligned a => exact ⟨_, _, rfl, .error _, refused⟩
  case wrMisaligned b a d => exact ⟨_, _, rfl, .error _, wr _⟩
  case wrPartial b a d => exact ⟨_, _, rfl, .error _, wr _⟩
  case cmdIllegal d => exact ⟨_, _, rfl, .error _, wr _⟩
  case cmdClrerr => exact ⟨_, _, rfl, .clear, wr _⟩
  case cmdInit => exact ⟨_, _, rfl, effect_gated _ _ .loadIv, wr _⟩
  case cmdNext => exact ⟨_, _, rfl, effect_gated _ _ (.accept _ · (.inl rfl)), wr _⟩
  case cmdFirst => exact ⟨_, _, rfl, effect_gated _ _ (.accept _ · (.inr rfl)), wr _⟩
  case wrBlock k d => exact ⟨_, _, rfl, effect_gated _ _ (.writeBlock k d), wr _⟩
  case wrH0 d => exact ⟨_, _, rfl, effect_gated _ _ (.writeH 0 d), wr _⟩
  case wrH1 d => exact ⟨_, _, rfl, effect_gated _ _ (.writeH 1 d), wr _⟩
  case wrH2 d => exact ⟨_, _, rfl, effect_gated _ _ (.writeH 2 d), wr _⟩
  case wrH3 d => exact ⟨_, _, rfl, effect_gated _ _ (.writeH 3 d), wr _⟩
  case wrH4 d => exact ⟨_, _, rfl, effect_gated _ _ (.writeH 4 d), wr _⟩
  case cmdNop => exact ⟨_, _, rfl, .none, wr _⟩
  case wrStatus d => exact ⟨_, _, rfl, .none, wr _⟩
  case wrCoreId d => exact ⟨_, _, rfl, .none, wr _⟩
  case wrCoreVersion d => exact ⟨_, _, rfl, .none, wr _⟩
  case wrRsvd a d => exact ⟨_, _, rfl, .none, wr _⟩
  all_goals exact ⟨_, _, rfl, .none, ok _⟩

/-- No transaction faults, and none is refused. -/
theorem exec_next (i : Instr) (s : State) : ∃ t, exec i s = .next t := by
  obtain ⟨u, r, h, -⟩ := exec_effect i s
  exact ⟨_, h⟩

/-- On a busy block a transaction raises an error, clears the error bits, or does nothing. -/
theorem Effect.of_busy {s u : State} (h : Effect s u) (busy : s.pend ≠ .none) :
    u = s ∨ (∃ e, u = s.raise e) ∨ u = s.clearErrors := by
  cases h with
  | none => exact .inl rfl
  | error e => exact .inr (.inl ⟨e, rfl⟩)
  | clear => exact .inr (.inr rfl)
  | writeH _ _ r => exact absurd r busy
  | writeBlock _ _ r => exact absurd r busy
  | loadIv r => exact absurd r busy
  | accept _ r => exact absurd r busy

/-- No transaction touches what the outside asks for next. -/
theorem Effect.inputs {s u : State} (h : Effect s u) : u.inputs = s.inputs := by
  cases h <;> simp

/-- No transaction takes an event out of FAULT. -/
theorem Effect.faults_grow {s u : State} (h : Effect s u) {x : ErrorEvent} (hx : x ∈ s.faults) : x ∈ u.faults := by
  cases h <;> simp [mem_recordEvent, hx]

end Sys2Proof.Machine
end

