-- ==== Sys2Proof/Laws/Step.lean ====
section
/-! SUPPORT. What a step can do, said once. -/

namespace Sys2Proof.Machine

/-- Every outcome of a step is one agent's step; the guards of each are in `nextEvent`. -/
theorem step_cases (s : State) :
    (s.nextEvent = .reset ∧ step s = .next s.popInput.takeReset) ∨
    (s.nextEvent = .completion ∧ step s = .next s.complete) ∨
    (∃ w, s.nextEvent = .transaction w ∧ step s = exec (decode w) s.popInput.tick) ∨
    (s.nextEvent = .foreign ∧ step s = .refused .secondBusMaster) ∨
    (s.nextEvent = .idle ∧ step s = .next s.tick) := by
  unfold step
  cases s.nextEvent <;> simp

/-- The completion is the next event exactly where it is due and no reset is asked for. -/
theorem nextEvent_completion_iff (s : State) :
    s.nextEvent = .completion ↔ s.due = true ∧ ∀ rest, s.inputs ≠ .reset :: rest := by
  unfold State.nextEvent
  split <;> rename_i h <;> cases hd : s.due <;> simp [h]

theorem nextEvent_of_txn {s : State} {w : TxnWord} {rest : List Input} (h : s.inputs = .txn .owner w :: rest)
    (hd : s.due = false) : s.nextEvent = .transaction w := by
  simp [State.nextEvent, h, hd]

theorem nextEvent_of_reset {s : State} {rest : List Input} (h : s.inputs = .reset :: rest) : s.nextEvent = .reset := by
  simp [State.nextEvent, h]

/-- A run of one step and more, where the first step is a next state. -/
theorem core_run_succ {s s' : State} (n : Nat) (h : step s = .next s') :
    Host.Core.run Sys2Proof.core (n + 1) s = Host.Core.run Sys2Proof.core n s' := by
  have h' : Sys2Proof.core.step s = .next s' := h
  simp only [Host.Core.run, h']

end Sys2Proof.Machine
end

