-- ==== Sys2Proof/Laws/Driver.lean ====
section
/-! SUPPORT. What each act of the host driver does, and then each of its sequences, said once: the equation of the run, and
what it leaves of the block. -/

namespace Sys2Proof.Machine

/-! ### One transaction -/

/-- On a block that is not busy a transaction takes one step. -/
theorem transact_of_ready {s : State} (h : s.pend = none) (w : TxnWord) :
    transact w s = exec (decode w) { s with inputs := [], wait := s.wait - 1 } := by
  have hd : ({ s with inputs := [.txn .owner w] } : State).due = false := State.due_of_none h
  unfold transact
  simp only [hd]
  unfold step
  rw [nextEvent_of_txn rfl hd]
  rfl

/-- On a busy block whose completion is not due it takes one step too. -/
theorem transact_of_waiting {s : State} (h : s.wait ≠ 0) (w : TxnWord) :
    transact w s = exec (decode w) { s with inputs := [], wait := s.wait - 1 } := by
  have hd : ({ s with inputs := [.txn .owner w] } : State).due = false := by simp [State.due, h]
  unfold transact
  simp only [hd]
  unfold step
  rw [nextEvent_of_txn rfl hd]
  rfl

/-- Where the completion is due it falls before the transaction. -/
theorem transact_of_due {s : State} {p : Pending} (h : s.pend = some p) (hw : s.wait = 0) (w : TxnWord) :
    transact w s = exec (decode w) { s.complete with inputs := [], wait := s.wait - 1 } := by
  have hd : ({ s with inputs := [.txn .owner w] } : State).due = true := by simp [State.due, hw, State.busy, h]
  have hc : ({ s with inputs := [.txn .owner w] } : State).nextEvent = .completion := by simp [State.nextEvent, hd]
  have h1 : step { s with inputs := [.txn .owner w] } = .next { s.complete with inputs := [.txn .owner w] } := by
    unfold step
    rw [hc]
    simp [State.complete, h]
  unfold transact
  simp only [hd, if_true, h1, andThen]
  unfold step
  rw [nextEvent_of_txn rfl (State.due_of_none (by simp [State.complete, h]))]
  simp [State.popInput, State.tick, State.complete, h]

/-! ### The words of the driver's lines -/

theorem decode_rd_status : decode (AsmLine.rd .status).word = .rdStatus := by decide
theorem decode_next : decode asmNext.word = .cmdNext := by decide
theorem decode_first : decode asmFirst.word = .cmdFirst := by decide
theorem decode_init : decode asmInit.word = .cmdInit := by decide
theorem decode_rd_chain : ∀ k : Fin 5, decode (AsmLine.rd (.chain k)).word = readChain k := by decide

theorem decode_wr_block (k : Fin 16) (d : Word) : decode (AsmLine.wr (.block k) d).word = .wrBlock k d := by
  have h : ∀ k : Fin 16, misaligned (blockOffset k) = false ∧ target (blockOffset k) = .block k := by decide
  simp [AsmLine.word, busWrite, RegName.offset, decode, h k, decodeWrite]

theorem decode_wr_chain (k : Fin 5) (d : Word) : decode (AsmLine.wr (.chain k) d).word = writeChain k d := by
  have h : ∀ k : Fin 5, misaligned (hOffset k) = false ∧ target (hOffset k) = .chain k := by decide
  simp [AsmLine.word, busWrite, RegName.offset, decode, h k, decodeWrite]

/-! ### One act -/

/-- On a block that is not busy the book loses exactly the words the transaction chooses. -/
theorem HostRun.book_of_ready {r : HostRun} (h : r.core.pend = none) (i : Instr) :
    r.book i = r.stale.filter fun k => !(chosenWords i).contains k := by
  simp [HostRun.book, State.busy, h]

/-- Polling ends on a block that is not busy, a pending compression completed and nothing else changed. -/
theorem pollReady_next : ∀ (n : Nat) (s : State), (s.pend = none ∨ s.wait < n) → 0 < n →
    ∃ t, pollReady n s = .next t ∧ t.pend = none ∧ t.h = s.complete.h ∧ t.block = s.block ∧ t.faults = s.faults ∧
      t.valid = s.complete.valid
  | 0, s, _, h => absurd h (Nat.lt_irrefl 0)
  | n + 1, s, hs, _ => by
    by_cases hp : s.pend = none
    · refine ⟨({ s with inputs := [], wait := s.wait - 1 } : State).answerRead
        ({ s with inputs := [], wait := s.wait - 1 } : State).statusWord, ?_, ?_⟩
      · unfold pollReady
        rw [transact_of_ready hp, decode_rd_status]
        simp only [andThen, exec, execRdStatus]
        rw [if_pos (by simp [answeredReady, State.answerRead, State.statusWord, statusBit, State.ready, hp])]
      · simp [State.answerRead, hp, State.complete]
    · obtain ⟨p, hp⟩ := Option.ne_none_iff_exists'.mp hp
      by_cases hw : s.wait = 0
      · refine ⟨({ s.complete with inputs := [], wait := s.wait - 1 } : State).answerRead
          ({ s.complete with inputs := [], wait := s.wait - 1 } : State).statusWord, ?_, ?_⟩
        · unfold pollReady
          rw [transact_of_due hp hw, decode_rd_status]
          simp only [andThen, exec, execRdStatus]
          rw [if_pos (by
            simp [answeredReady, State.answerRead, State.statusWord, statusBit, State.ready, hp, State.complete])]
        · simp [State.answerRead, hp, State.complete]
      · have hn : s.wait < n + 1 := hs.resolve_left (by simp [hp])
        obtain ⟨t, h1, h2, h3, h4, h5, h6⟩ := pollReady_next n
          (({ s with inputs := [], wait := s.wait - 1 } : State).answerRead
            ({ s with inputs := [], wait := s.wait - 1 } : State).statusWord)
          (.inr (by simp only [State.answerRead, State.respond_wait]; omega)) (by omega)
        refine ⟨t, ?_, h2, ?_, h4, h5, ?_⟩
        · unfold pollReady
          rw [transact_of_waiting hw, decode_rd_status]
          simp only [andThen, exec, execRdStatus]
          rw [if_neg (by simp [answeredReady, State.answerRead, State.statusWord, statusBit, State.ready, hp])]
          exact h1
        · rw [h3]; simp [State.answerRead, State.complete, hp]
        · rw [h6]; simp [State.answerRead, State.complete, hp]

/-- `wait` leaves a block that is not busy. -/
theorem act_wait (r : HostRun) : ∃ c, r.act .wait = .next { r with core := c } ∧ c.pend = none ∧
    c.faults = r.core.faults ∧ c.h = r.core.complete.h ∧ c.block = r.core.block ∧ c.valid = r.core.complete.valid := by
  obtain ⟨t, h1, h2, h3, h4, h5, h6⟩ := pollReady_next (r.core.wait + 1) r.core (.inr (by omega)) (by omega)
  exact ⟨t, by simp [HostRun.act, h1, andThen], h2, h5, h3, h4, h6⟩

/-- A write of BLOCK[k] on a block that is not busy. -/
theorem act_wr_block (r : HostRun) (h : r.core.pend = none) (k : Fin 16) (d : Word) :
    ∃ c, r.act (.txn (.wr (.block k) d)) = .next { r with core := c } ∧ c.pend = none ∧ c.faults = r.core.faults ∧
      c.h = r.core.h ∧ c.block = r.core.block.set k d := by
  refine ⟨(State.writeBlock k d { r.core with inputs := [], wait := r.core.wait - 1 }).answerWrite, ?_, ?_⟩
  · unfold HostRun.act
    simp only [decode_wr_block, HostRun.book_of_ready h]
    rw [if_neg (by simp), transact_of_ready h, decode_wr_block]
    simp only [exec, execWrBlock]
    rw [State.gated_of_ready (by exact h)]
    simp [andThen, State.answerWrite, yielded, chosenWords]
  · simp [State.answerWrite, h]

/-- A write of H[k] on a block that is not busy; the book loses k. -/
theorem act_wr_chain (r : HostRun) (h : r.core.pend = none) (k : Fin 5) (d : Word) :
    ∃ c, r.act (.txn (.wr (.chain k) d)) = .next { core := c, reads := r.reads, stale := r.stale.filter (· ≠ k) } ∧
      c.pend = none ∧ c.faults = r.core.faults ∧ c.h = r.core.h.set k d := by
  refine ⟨(State.writeH k d { r.core with inputs := [], wait := r.core.wait - 1 }).answerWrite, ?_, ?_⟩
  · unfold HostRun.act
    simp only [decode_wr_chain, HostRun.book_of_ready h]
    rw [if_neg (by fin_cases k <;> simp [writeChain]), transact_of_ready h, decode_wr_chain]
    have he : exec (writeChain k d) { r.core with inputs := [], wait := r.core.wait - 1 } =
        .next (State.writeH k d { r.core with inputs := [], wait := r.core.wait - 1 }).answerWrite := by
      fin_cases k <;>
        simp only [writeChain, exec, execWrH0, execWrH1, execWrH2, execWrH3, execWrH4, writeChainWord] <;>
        rw [State.gated_of_ready (by exact h)] <;> rfl
    have hc : chosenWords (writeChain k d) = [k] := by fin_cases k <;> rfl
    rw [he, hc]
    simp [andThen, State.answerWrite, yielded]
  · simp [State.answerWrite, h]

/-- A read of H[k] on a block that is not busy. -/
theorem act_rd_chain (r : HostRun) (h : r.core.pend = none) (k : Fin 5) :
    ∃ c, r.act (.txn (.rd (.chain k))) = .next { r with core := c, reads := r.reads ++ [r.core.h[k]] } ∧
      c.pend = none ∧ c.faults = r.core.faults ∧ c.h = r.core.h ∧ c.valid = r.core.valid := by
  refine ⟨({ r.core with inputs := [], wait := r.core.wait - 1 } : State).answerRead r.core.h[k], ?_, ?_⟩
  · unfold HostRun.act
    simp only [decode_rd_chain, HostRun.book_of_ready h]
    rw [if_neg (by fin_cases k <;> simp [readChain]), transact_of_ready h, decode_rd_chain]
    have he : exec (readChain k) { r.core with inputs := [], wait := r.core.wait - 1 } =
        .next (State.answerRead r.core.h[k] { r.core with inputs := [], wait := r.core.wait - 1 }) := by
      fin_cases k <;> rfl
    have hc : chosenWords (readChain k) = [] := by fin_cases k <;> rfl
    rw [he, hc]
    simp [andThen, State.answerRead, yielded]
  · simp [State.answerRead, h]

/-- `first` or `next` on a block that is not busy, a `next` with no word of H in the book. -/
theorem act_start (r : HostRun) (h : r.core.pend = none) (begun : Bool) (hs : begun = true → r.stale = []) :
    ∃ c, r.act (.txn (if begun then asmNext else asmFirst)) = .next { core := c, reads := r.reads, stale := [] } ∧
      c.faults = r.core.faults ∧ c.complete.h = compress (if begun then r.core.h else iv) r.core.block ∧
      c.complete.valid = true := by
  have hf : ∀ l : List (Fin 5), l.filter (fun k => !([0, 1, 2, 3, 4] : List (Fin 5)).contains k) = [] := by
    intro l
    rw [List.filter_eq_nil_iff]
    intro k _
    fin_cases k <;> simp
  cases begun
  · refine ⟨(({ r.core with inputs := [], wait := r.core.wait - 1 } : State).accept iv).answerWrite, ?_, ?_⟩
    · unfold HostRun.act
      simp only [Bool.false_eq_true, if_false, decode_first, HostRun.book_of_ready h, chosenWords, hf]
      rw [if_neg (by simp), transact_of_ready h, decode_first]
      simp only [exec, execCmdFirst]
      rw [State.gated_of_ready (by exact h)]
      simp [andThen, State.answerWrite, yielded]
    · simp [State.answerWrite, State.complete]
  · refine ⟨(({ r.core with inputs := [], wait := r.core.wait - 1 } : State).accept r.core.h).answerWrite, ?_, ?_⟩
    · unfold HostRun.act
      simp only [if_true, decode_next, HostRun.book_of_ready h, hs rfl]
      rw [if_neg (by simp), transact_of_ready h, decode_next]
      simp only [exec, execCmdNext]
      rw [State.gated_of_ready (by exact h)]
      simp [andThen, State.answerWrite, yielded]
    · simp [State.answerWrite, State.complete]

/-! ### Sequences -/

theorem runHost_append (a b : List HostOp) (r : HostRun) : runHost (a ++ b) r = andThen (runHost a r) (runHost b) := by
  induction a generalizing r with
  | nil => rfl
  | cons x xs ih =>
    simp only [List.cons_append, runHost]
    cases h : r.act x <;> simp [andThen, ih]

/-- Writes of the BLOCK words of `l`, on a block that is not busy. -/
theorem run_wr_blocks (b : Block) : ∀ (l : List (Fin 16)) (r : HostRun), r.core.pend = none →
    ∃ c, runHost (l.map fun i => .txn (.wr (.block i) b[i])) r = .next { r with core := c } ∧ c.pend = none ∧
      c.faults = r.core.faults ∧ c.h = r.core.h ∧ ∀ i : Fin 16, c.block[i] = if i ∈ l then b[i] else r.core.block[i]
  | [], r, h => ⟨r.core, rfl, h, rfl, rfl, by simp⟩
  | k :: l, r, h => by
    obtain ⟨c, e, h1, h2, h3, h5⟩ := act_wr_block r h k b[k]
    obtain ⟨c', e', g1, g2, g3, g4⟩ := run_wr_blocks b l { r with core := c } h1
    refine ⟨c', by simp only [List.map_cons, runHost, e, andThen, e'], g1, g2.trans h2, g3.trans h3, fun i => ?_⟩
    rw [g4 i]
    simp only [List.mem_cons]
    by_cases hi : i ∈ l
    · simp [hi]
    · by_cases hk : i = k
      · subst hk; simp [hi, h5]
      · have hv : ¬k.val = i.val := fun hv => hk (Fin.ext hv.symm)
        simp [hi, hk, h5, hv]

/-- One block: after it a compression of it is pending, or complete. -/
theorem run_block (b : Block) (begun : Bool) (r : HostRun) (hs : begun = true → r.stale = []) :
    ∃ c, runHost (blockOps b (if begun then asmNext else asmFirst)) r = .next { core := c, reads := r.reads, stale := [] } ∧
      c.faults = r.core.faults ∧ c.complete.h = compress (if begun then r.core.complete.h else iv) b ∧
      c.complete.valid = true := by
  obtain ⟨c1, e1, p1, f1, h1, -, -⟩ := act_wait r
  obtain ⟨c2, e2, p2, f2, h2, b2⟩ := run_wr_blocks b (List.finRange 16) { r with core := c1 } p1
  obtain ⟨c3, e3, f3, h3, v3⟩ := act_start { r with core := c2 } p2 begun hs
  have hb : c2.block = b := by
    apply Vector.ext
    intro i hi
    simpa using b2 ⟨i, hi⟩
  refine ⟨c3, ?_, by rw [f3]; simp [f2, f1], ?_, v3⟩
  · unfold blockOps asmLdblk
    rw [runHost, e1, andThen, runHost_append, List.map_map]
    rw [show (HostOp.txn ∘ fun i => AsmLine.wr (RegName.block i) b[i]) =
      fun i : Fin 16 => HostOp.txn (.wr (.block i) b[i]) from rfl, e2]
    simp only [andThen, runHost, e3]
  · rw [h3]
    simp only [hb, h2, h1]

/-- Blocks issued with `next` only. -/
theorem run_next_blocks : ∀ (bs : List Block) (r : HostRun), r.stale = [] →
    ∃ c, runHost (bs.flatMap (blockOps · asmNext)) r = .next { core := c, reads := r.reads, stale := [] } ∧
      c.faults = r.core.faults ∧ c.complete.h = foldBlocks r.core.complete.h bs ∧
      (r.core.complete.valid = true → c.complete.valid = true)
  | [], r, hs => ⟨r.core, by simp [runHost, ← hs], rfl, rfl, id⟩
  | b :: bs, r, hs => by
    obtain ⟨c, e, f, h, v⟩ := run_block b true r fun _ => hs
    obtain ⟨c', e', f', h', v'⟩ := run_next_blocks bs { core := c, reads := r.reads, stale := [] } rfl
    refine ⟨c', ?_, f'.trans f, ?_, fun _ => v' v⟩
    · rw [List.flatMap_cons, runHost_append]
      simp only [if_true] at e
      rw [e, andThen, e']
    · rw [h', h]; simp [foldBlocks]

/-- Some blocks of a message, from IV where they are its first. -/
theorem run_message (begun : Bool) (b : Block) (bs : List Block) (r : HostRun) (hs : begun = true → r.stale = []) :
    ∃ c, runHost (messageOps begun (b :: bs)) r = .next { core := c, reads := r.reads, stale := [] } ∧
      c.faults = r.core.faults ∧ c.complete.h = foldBlocks (if begun then r.core.complete.h else iv) (b :: bs) ∧
      c.complete.valid = true := by
  obtain ⟨c1, e1, f1, h1, v1⟩ := run_block b begun r hs
  obtain ⟨c2, e2, f2, h2, v2⟩ := run_next_blocks bs { core := c1, reads := r.reads, stale := [] } rfl
  exact ⟨c2, by rw [messageOps, runHost_append, e1, andThen, e2], f2.trans f1, by rw [h2, h1]; rfl, v2 v1⟩

theorem chain_toList (v : Chain) : v.toList = [v[0], v[1], v[2], v[3], v[4]] := by
  refine List.ext_getElem (by simp) fun i hi _ => ?_
  have hi : i < 5 := by simpa using hi
  rcases (by omega : i = 0 ∨ i = 1 ∨ i = 2 ∨ i = 3 ∨ i = 4) with rfl | rfl | rfl | rfl | rfl <;> rfl

/-- `wait; rdh` yields the chaining state, a pending compression completed first. -/
theorem run_readout (r : HostRun) :
    ∃ c, runHost readoutOps r = .next { r with core := c, reads := r.reads ++ r.core.complete.h.toList } ∧
      c.pend = none ∧ c.faults = r.core.faults ∧ c.h = r.core.complete.h ∧ c.valid = r.core.complete.valid := by
  obtain ⟨c, e, p, f, h, -, v⟩ := act_wait r
  obtain ⟨c0, e0, p0, f0, h0, v0⟩ := act_rd_chain { r with core := c } p 0
  obtain ⟨c1, e1, p1, f1, h1, v1⟩ := act_rd_chain { r with core := c0, reads := r.reads ++ [c.h[(0 : Fin 5)]] } p0 1
  obtain ⟨c2, e2, p2, f2, h2, v2⟩ :=
    act_rd_chain { r with core := c1, reads := r.reads ++ [c.h[(0 : Fin 5)]] ++ [c0.h[(1 : Fin 5)]] } p1 2
  obtain ⟨c3, e3, p3, f3, h3, v3⟩ :=
    act_rd_chain { r with
      core := c2
      reads := r.reads ++ [c.h[(0 : Fin 5)]] ++ [c0.h[(1 : Fin 5)]] ++ [c1.h[(2 : Fin 5)]] } p2 3
  obtain ⟨c4, e4, p4, f4, h4, v4⟩ :=
    act_rd_chain { r with
      core := c3
      reads := r.reads ++ [c.h[(0 : Fin 5)]] ++ [c0.h[(1 : Fin 5)]] ++ [c1.h[(2 : Fin 5)]] ++ [c2.h[(3 : Fin 5)]] } p3 4
  dsimp only at e0 e1 e2 e3 e4 f0 f1 f2 f3 f4 h0 h1 h2 h3 h4 v0 v1 v2 v3 v4
  refine ⟨c4, ?_, p4, by rw [f4, f3, f2, f1, f0, f], by rw [h4, h3, h2, h1, h0, h], by rw [v4, v3, v2, v1, v0, v]⟩
  rw [show readoutOps = [.wait, .txn (.rd (.chain 0)), .txn (.rd (.chain 1)), .txn (.rd (.chain 2)),
    .txn (.rd (.chain 3)), .txn (.rd (.chain 4))] by decide]
  simp only [runHost, e, e0, e1, e2, e3, e4, andThen]
  simp only [List.append_assoc, List.cons_append, List.nil_append]
  rw [h3, h2, h1, h0, h, chain_toList]
  rfl

/-- The last blocks of a message: its state read out, the book closed. -/
theorem run_last (begun : Bool) (b : Block) (bs : List Block) (r : HostRun) (hs : begun = true → r.stale = []) :
    ∃ c, runHost (lastOps begun (b :: bs)) { r with reads := [] } =
        .next { core := c, reads := (foldBlocks (if begun then r.core.complete.h else iv) (b :: bs)).toList,
                stale := [0, 1, 2, 3, 4] } ∧
      c.pend = none ∧ c.faults = r.core.faults ∧ c.valid = true := by
  obtain ⟨c1, e1, f1, h1, v1⟩ := run_message begun b bs { r with reads := [] } hs
  obtain ⟨c2, e2, p2, f2, -, v2⟩ := run_readout { core := c1, reads := [], stale := [] }
  refine ⟨c2, ?_, p2, f2.trans f1, v2.trans v1⟩
  rw [lastOps, runHost_append, runHost_append, e1, andThen, e2]
  simp only [andThen, runHost, HostRun.act, List.nil_append, h1]

/-- `ldh` on a block that is not busy: H is loaded, and no word of it is in the book. -/
theorem run_ldh (v : Chain) (r : HostRun) (h : r.core.pend = none) :
    ∃ c, runHost ((asmLdh v).map .txn) r = .next { core := c, reads := r.reads, stale := [] } ∧ c.pend = none ∧
      c.faults = r.core.faults ∧ c.h = v := by
  obtain ⟨c0, e0, p0, f0, h0⟩ := act_wr_chain r h 0 v[0]
  obtain ⟨c1, e1, p1, f1, h1⟩ := act_wr_chain ⟨c0, r.reads, r.stale.filter (· ≠ 0)⟩ p0 1 v[1]
  obtain ⟨c2, e2, p2, f2, h2⟩ := act_wr_chain ⟨c1, r.reads, (r.stale.filter (· ≠ 0)).filter (· ≠ 1)⟩ p1 2 v[2]
  obtain ⟨c3, e3, p3, f3, h3⟩ :=
    act_wr_chain ⟨c2, r.reads, ((r.stale.filter (· ≠ 0)).filter (· ≠ 1)).filter (· ≠ 2)⟩ p2 3 v[3]
  obtain ⟨c4, e4, p4, f4, h4⟩ :=
    act_wr_chain ⟨c3, r.reads, (((r.stale.filter (· ≠ 0)).filter (· ≠ 1)).filter (· ≠ 2)).filter (· ≠ 3)⟩ p3 4 v[4]
  dsimp only at f0 f1 f2 f3 f4 h0 h1 h2 h3 h4
  have hn : ((((r.stale.filter (· ≠ 0)).filter (· ≠ 1)).filter (· ≠ 2)).filter (· ≠ 3)).filter (· ≠ 4) = [] := by
    rw [List.filter_eq_nil_iff]
    intro k hk
    simp only [List.mem_filter, decide_eq_true_eq] at hk
    fin_cases k <;> simp_all
  refine ⟨c4, ?_, p4, by rw [f4, f3, f2, f1, f0], ?_⟩
  · rw [show (asmLdh v).map HostOp.txn = [.txn (.wr (.chain 0) v[0]), .txn (.wr (.chain 1) v[1]),
      .txn (.wr (.chain 2) v[2]), .txn (.wr (.chain 3) v[3]), .txn (.wr (.chain 4) v[4])] from rfl]
    simp only [runHost, andThen, e0, e1, e2, e3, e4, hn]
  · rw [h4, h3, h2, h1, h0]
    apply Vector.ext
    intro i hi
    rcases (by omega : i = 0 ∨ i = 1 ∨ i = 2 ∨ i = 3 ∨ i = 4) with rfl | rfl | rfl | rfl | rfl <;> simp

end Sys2Proof.Machine
end

