-- ==== Sys2Proof/Laws/PerInstr.lean ====
section
/-! SUPPORT. A family of facts about the transactions as syntax, one lemma for each constructor. -/

namespace Sys2Proof.Laws.Fields

/-- The encoded word carries the transaction's direction in RW (R101), and of a read it is the canonical spelling, STRB and
WDATA both 0 (R102, R104). -/
def Statement (i : Instr) : Prop :=
  rwOf (encode i) = i.isWrite ∧ (i.isWrite = false → strbOf (encode i) = 0 ∧ wdataOf (encode i) = 0)

theorem rdCtrl : Statement (.rdCtrl) := by
  simp [Statement, encode, Instr.isWrite]

theorem rdStatus : Statement (.rdStatus) := by
  simp [Statement, encode, Instr.isWrite]

theorem rdCoreId : Statement (.rdCoreId) := by
  simp [Statement, encode, Instr.isWrite]

theorem rdCoreVersion : Statement (.rdCoreVersion) := by
  simp [Statement, encode, Instr.isWrite]

theorem rdH0 : Statement (.rdH0) := by
  simp [Statement, encode, Instr.isWrite]

theorem rdH1 : Statement (.rdH1) := by
  simp [Statement, encode, Instr.isWrite]

theorem rdH2 : Statement (.rdH2) := by
  simp [Statement, encode, Instr.isWrite]

theorem rdH3 : Statement (.rdH3) := by
  simp [Statement, encode, Instr.isWrite]

theorem rdH4 : Statement (.rdH4) := by
  simp [Statement, encode, Instr.isWrite]

theorem rdBlock (i : Fin 16) : Statement (.rdBlock i) := by
  simp [Statement, encode, Instr.isWrite]

theorem rdRsvd (a : BitVec 5) : Statement (.rdRsvd a) := by
  simp [Statement, encode, Instr.isWrite]

theorem rdMisaligned (addr : Offset) : Statement (.rdMisaligned addr) := by
  simp [Statement, encode, Instr.isWrite]

theorem cmdNop : Statement (.cmdNop) := by
  simp [Statement, encode, Instr.isWrite]

theorem cmdInit : Statement (.cmdInit) := by
  simp [Statement, encode, Instr.isWrite]

theorem cmdNext : Statement (.cmdNext) := by
  simp [Statement, encode, Instr.isWrite]

theorem cmdFirst : Statement (.cmdFirst) := by
  simp [Statement, encode, Instr.isWrite]

theorem cmdClrerr : Statement (.cmdClrerr) := by
  simp [Statement, encode, Instr.isWrite]

theorem cmdIllegal (d : Word) : Statement (.cmdIllegal d) := by
  simp [Statement, encode, Instr.isWrite]

theorem wrStatus (d : Word) : Statement (.wrStatus d) := by
  simp [Statement, encode, Instr.isWrite]

theorem wrCoreId (d : Word) : Statement (.wrCoreId d) := by
  simp [Statement, encode, Instr.isWrite]

theorem wrCoreVersion (d : Word) : Statement (.wrCoreVersion d) := by
  simp [Statement, encode, Instr.isWrite]

theorem wrH0 (d : Word) : Statement (.wrH0 d) := by
  simp [Statement, encode, Instr.isWrite]

theorem wrH1 (d : Word) : Statement (.wrH1 d) := by
  simp [Statement, encode, Instr.isWrite]

theorem wrH2 (d : Word) : Statement (.wrH2 d) := by
  simp [Statement, encode, Instr.isWrite]

theorem wrH3 (d : Word) : Statement (.wrH3 d) := by
  simp [Statement, encode, Instr.isWrite]

theorem wrH4 (d : Word) : Statement (.wrH4 d) := by
  simp [Statement, encode, Instr.isWrite]

theorem wrBlock (i : Fin 16) (d : Word) : Statement (.wrBlock i d) := by
  simp [Statement, encode, Instr.isWrite]

theorem wrRsvd (a : BitVec 5) (d : Word) : Statement (.wrRsvd a d) := by
  simp [Statement, encode, Instr.isWrite]

theorem wrPartial (strb : Strobe) (a : BitVec 5) (d : Word) : Statement (.wrPartial strb a d) := by
  simp [Statement, encode, Instr.isWrite]

theorem wrMisaligned (strb : Strobe) (addr : Offset) (d : Word) : Statement (.wrMisaligned strb addr d) := by
  simp [Statement, encode, Instr.isWrite]

end Sys2Proof.Laws.Fields
end

