-- ==== Sys2Proof/Tests/Slice0.lean ====
section
/-! SUPPORT. The model's own tests: ill-formed terms refused by WellFormed, every row's decoding from a word written out from
30_encoding.md R107, one-step vectors of 95_test_vectors.md sections 2.3 to 2.6, known answers of sections 1 and 2.1, and
for every statement with hypotheses a witness that meets them. Expected results are the spec's. -/

namespace Sys2Proof.Tests

open Sys2Proof.Machine
open Host (Outcome)

/-! ### Helpers -/

/-- The next state of an outcome, if it is one. -/
def after (o : Outcome State Fault Refusal) : Option State :=
  match o with
  | .next t => some t
  | .fault _ => none
  | .refused _ => none

/-- The response after one transaction. -/
def answer (i : Instr) (s : State) : Option Response := (after (exec i s)).bind (·.resp)

/-- 95_test_vectors.md section 2.3: "busy" is after `first` was accepted from the reset state, before completion. -/
def busy (wait : Nat) : State := { State.reset with pend := some ⟨iv, State.reset.block⟩, wait := wait }

/-- The padded block of "abc" (95_test_vectors.md section 2.1). -/
def abcBlock : Block := #v[0x61626380#32, 0, 0, 0, 0, 0, 0, 0, 0, 0, 0, 0, 0, 0, 0, 0x18#32]

/-- Five equal words. -/
def five (w : Word) : Chain := Vector.replicate 5 w

/-! ### WellFormed: an ill-formed term for each check, refused -/

theorem test_ill_formed_rd_rsvd : (Instr.rdRsvd 0b00000#5).wellFormed = false := by decide
theorem test_ill_formed_rd_misaligned : (Instr.rdMisaligned 0x04#7).wellFormed = false := by decide
theorem test_ill_formed_cmd_illegal : (Instr.cmdIllegal 0x4#32).wellFormed = false := by decide
theorem test_ill_formed_wr_rsvd : (Instr.wrRsvd 0b10000#5 0x0#32).wellFormed = false := by decide
theorem test_ill_formed_wr_partial : (Instr.wrPartial 0b1111#4 0b00000#5 0x0#32).wellFormed = false := by decide
theorem test_ill_formed_wr_misaligned : (Instr.wrMisaligned 0b1111#4 0x40#7 0x0#32).wellFormed = false := by decide
theorem test_reserved_offsets :
    (List.finRange 32).filter (fun a => reservedIndex (BitVec.ofFin a)) = [4, 5, 6, 7, 13, 14, 15] := by decide

/-! ### Decoding: one word of every row, written out from the row's encoding string (R107; bit 43 first) -/

theorem test_decode_rd_ctrl :
    decode 0b0_0000_0000000_00000000_00000000_00000000_00000000#44 = .rdCtrl := by decide

theorem test_decode_rd_status_ignores_strb_and_wdata :
    decode 0b0_1010_0000100_10100101_10100101_10100101_10100101#44 = .rdStatus := by decide

theorem test_decode_rd_core_id :
    decode 0b0_0000_0001000_00000000_00000000_00000000_00000000#44 = .rdCoreId := by decide

theorem test_decode_rd_core_version :
    decode 0b0_0000_0001100_00000000_00000000_00000000_00000000#44 = .rdCoreVersion := by decide

theorem test_decode_rd_h0 :
    decode 0b0_0000_0100000_00000000_00000000_00000000_00000000#44 = .rdH0 := by decide

theorem test_decode_rd_h1 :
    decode 0b0_0000_0100100_00000000_00000000_00000000_00000000#44 = .rdH1 := by decide

theorem test_decode_rd_h2 :
    decode 0b0_0000_0101000_00000000_00000000_00000000_00000000#44 = .rdH2 := by decide

theorem test_decode_rd_h3 :
    decode 0b0_0000_0101100_00000000_00000000_00000000_00000000#44 = .rdH3 := by decide

theorem test_decode_rd_h4 :
    decode 0b0_0000_0110000_00000000_00000000_00000000_00000000#44 = .rdH4 := by decide

theorem test_decode_rd_block_7 :
    decode 0b0_1111_1011100_10100101_10100101_10100101_10100101#44 = .rdBlock 7 := by decide

theorem test_decode_rd_rsvd_0x3C :
    decode 0b0_0000_0111100_00000000_00000000_00000000_00000000#44 = .rdRsvd 0b01111#5 := by decide

theorem test_decode_rd_misaligned_0x21 :
    decode 0b0_0000_0100001_00000000_00000000_00000000_00000000#44 = .rdMisaligned 0x21#7 := by decide

theorem test_decode_cmd_nop :
    decode 0b1_1111_0000000_00000000_00000000_00000000_00000000#44 = .cmdNop := by decide

theorem test_decode_cmd_init :
    decode 0b1_1111_0000000_00000000_00000000_00000000_00000001#44 = .cmdInit := by decide

theorem test_decode_cmd_next :
    decode 0b1_1111_0000000_00000000_00000000_00000000_00000010#44 = .cmdNext := by decide

theorem test_decode_cmd_first :
    decode 0b1_1111_0000000_00000000_00000000_00000000_00000011#44 = .cmdFirst := by decide

theorem test_decode_cmd_clrerr :
    decode 0b1_1111_0000000_00000000_00000000_00000000_00000100#44 = .cmdClrerr := by decide

theorem test_decode_cmd_illegal_op_5 :
    decode 0b1_1111_0000000_00000000_00000000_00000000_00000101#44 = .cmdIllegal 0x5#32 := by decide

theorem test_decode_cmd_illegal_reserved_bit :
    decode 0b1_1111_0000000_10000000_00000000_00000000_00000011#44 = .cmdIllegal 0x80000003#32 := by decide

theorem test_decode_wr_status :
    decode 0b1_1111_0000100_11011110_10101101_10111110_11101111#44 = .wrStatus 0xdeadbeef#32 := by decide

theorem test_decode_wr_core_id :
    decode 0b1_1111_0001000_11011110_10101101_10111110_11101111#44 = .wrCoreId 0xdeadbeef#32 := by decide

theorem test_decode_wr_core_version :
    decode 0b1_1111_0001100_11011110_10101101_10111110_11101111#44 = .wrCoreVersion 0xdeadbeef#32 := by decide

theorem test_decode_wr_h0 :
    decode 0b1_1111_0100000_11011110_10101101_10111110_11101111#44 = .wrH0 0xdeadbeef#32 := by decide

theorem test_decode_wr_h1 :
    decode 0b1_1111_0100100_11011110_10101101_10111110_11101111#44 = .wrH1 0xdeadbeef#32 := by decide

theorem test_decode_wr_h2 :
    decode 0b1_1111_0101000_11011110_10101101_10111110_11101111#44 = .wrH2 0xdeadbeef#32 := by decide

theorem test_decode_wr_h3 :
    decode 0b1_1111_0101100_11011110_10101101_10111110_11101111#44 = .wrH3 0xdeadbeef#32 := by decide

theorem test_decode_wr_h4 :
    decode 0b1_1111_0110000_11011110_10101101_10111110_11101111#44 = .wrH4 0xdeadbeef#32 := by decide

theorem test_decode_wr_block_15 :
    decode 0b1_1111_1111100_11011110_10101101_10111110_11101111#44 = .wrBlock 15 0xdeadbeef#32 := by decide

theorem test_decode_wr_rsvd_0x10 :
    decode 0b1_1111_0010000_11011110_10101101_10111110_11101111#44 = .wrRsvd 0b00100#5 0xdeadbeef#32 := by decide

theorem test_decode_wr_partial_at_ctrl :
    decode 0b1_0000_0000000_00000000_00000000_00000000_00000010#44 = .wrPartial 0b0000#4 0b00000#5 0x2#32 := by decide

theorem test_decode_wr_partial_at_0x40 :
    decode 0b1_0011_1000000_11011110_10101101_10111110_11101111#44 = .wrPartial 0b0011#4 0b10000#5 0xdeadbeef#32 := by decide

theorem test_decode_wr_misaligned_full_strobe :
    decode 0b1_1111_1000010_00000000_00000000_00000000_00000001#44 = .wrMisaligned 0b1111#4 0x42#7 0x1#32 := by decide

theorem test_decode_wr_misaligned_before_partial :
    decode 0b1_0111_1000001_00000000_00000000_00000000_00000000#44 = .wrMisaligned 0b0111#4 0x41#7 0x0#32 := by decide


theorem test_decode_number_too_wide : decodeNat (2 ^ 44) = .error .widerThanTransaction := rfl
theorem test_decode_table_word : decodeTableWord 44 0xfc061626380 = some (.wrBlock 0 0x61626380#32) := by decide
theorem test_encode_first : encode .cmdFirst = 0xf8000000003#44 := by decide
theorem test_table_has_thirty_rows : opcodeTable.length = 30 := by decide

/-! ### Reads (95_test_vectors.md section 2.3; the row's number in the name) -/

theorem test_B1_rd_ctrl : answer .rdCtrl State.reset = some (.read .okay 0x0#32) := by decide
theorem test_rd_ctrl_busy : answer .rdCtrl (busy 3) = some (.read .okay 0x0#32) := by decide
theorem test_B2_rd_status : answer .rdStatus State.reset = some (.read .okay 0x1#32) := by decide
theorem test_P5_rd_status : answer .rdStatus { busy 3 with errBusy := true, errCmd := true } = some (.read .okay 0x300#32) := by
  decide
theorem test_B4_rd_core_id : answer .rdCoreId State.reset = some (.read .okay 0x53484131#32) := by decide
theorem test_B5_rd_core_version : answer .rdCoreVersion State.reset = some (.read .okay 0x00010000#32) := by decide
theorem test_B7_rd_h0 : answer .rdH0 { busy 3 with h := five 0x12345678#32 } = some (.read .okay 0x12345678#32) := by decide
theorem test_rd_h1 : answer .rdH1 State.reset = some (.read .okay 0xEFCDAB89#32) := by decide
theorem test_rd_h2 : answer .rdH2 State.reset = some (.read .okay 0x98BADCFE#32) := by decide
theorem test_rd_h3 : answer .rdH3 State.reset = some (.read .okay 0x10325476#32) := by decide
theorem test_B6_rd_h4 : answer .rdH4 State.reset = some (.read .okay 0xC3D2E1F0#32) := by decide
theorem test_B8_rd_block7 : answer (.rdBlock 7) State.reset = some (.read .okay 0x0#32) := by decide
theorem test_rd_block15 : answer (.rdBlock 15) { State.reset with block := abcBlock } = some (.read .okay 0x18#32) := by decide
theorem test_B9_rd_misaligned :
    after (exec (.rdMisaligned 0x21#7) State.reset) =
      some { State.reset with faults := [.misaligned 0x21#7], resp := some (.read .slverr 0x0#32) } := by decide
theorem test_B10_rd_rsvd : answer (.rdRsvd 0b01101#5) State.reset = some (.read .okay 0x0#32) := by decide

/-! ### Writes (sections 2.3 and 2.5) -/

theorem test_B11_wr_status :
    after (exec (.wrStatus 0xffffffff#32) { State.reset with errCmd := true }) =
      some { State.reset with errCmd := true, resp := some (.write .okay) } := by decide
theorem test_B12_wr_core_id :
    after (exec (.wrCoreId 0x0#32) State.reset) = some { State.reset with resp := some (.write .okay) } := by decide
theorem test_B13_wr_core_version :
    after (exec (.wrCoreVersion 0x0#32) State.reset) = some { State.reset with resp := some (.write .okay) } := by decide
theorem test_wr_h0 : (after (exec (.wrH0 0x1#32) State.reset)).map (·.h) =
    some #v[0x1#32, 0xEFCDAB89#32, 0x98BADCFE#32, 0x10325476#32, 0xC3D2E1F0#32] := by decide
theorem test_wr_h1 : (after (exec (.wrH1 0x1#32) State.reset)).map (·.h) =
    some #v[0x67452301#32, 0x1#32, 0x98BADCFE#32, 0x10325476#32, 0xC3D2E1F0#32] := by decide
theorem test_B14_wr_h2 : after (exec (.wrH2 0xdeadbeef#32) { State.reset with valid := true }) =
    some { State.reset with
      h := #v[0x67452301#32, 0xEFCDAB89#32, 0xdeadbeef#32, 0x10325476#32, 0xC3D2E1F0#32]
      resp := some (.write .okay) } := by decide
theorem test_B15_wr_h2_busy : after (exec (.wrH2 0xdeadbeef#32) (busy 3)) =
    some { busy 3 with errBusy := true, faults := [.busyReject 0x28#7], resp := some (.write .okay) } := by decide
theorem test_wr_h3 : (after (exec (.wrH3 0x1#32) State.reset)).map (·.h) =
    some #v[0x67452301#32, 0xEFCDAB89#32, 0x98BADCFE#32, 0x1#32, 0xC3D2E1F0#32] := by decide
theorem test_wr_h4 : (after (exec (.wrH4 0x1#32) State.reset)).map (·.h) =
    some #v[0x67452301#32, 0xEFCDAB89#32, 0x98BADCFE#32, 0x10325476#32, 0x1#32] := by decide
theorem test_B16_wr_block15 : (after (exec (.wrBlock 15 0x18#32) { State.reset with valid := true })).map
    (fun t => (t.block[15], t.block[14], t.valid)) = some (0x18#32, 0x0#32, true) := by decide
theorem test_B17_wr_block15_busy : after (exec (.wrBlock 15 0x18#32) (busy 3)) =
    some { busy 3 with errBusy := true, faults := [.busyReject 0x7C#7], resp := some (.write .okay) } := by decide
theorem test_B18_wr_misaligned : after (exec (.wrMisaligned 0b1111#4 0x42#7 0x1#32) State.reset) =
    some { State.reset with faults := [.misaligned 0x42#7], resp := some (.write .slverr) } := by decide
theorem test_X1_misaligned_before_partial_and_busy :
    expectedError 0xbc100000000#44 (busy 3) = some (.misaligned 0x41#7) := by decide
theorem test_B19_wr_partial : after (exec (.wrPartial 0b0011#4 0b10000#5 0x1234#32) State.reset) =
    some { State.reset with faults := [.partialWrite 0x40#7 0b0011#4], resp := some (.write .slverr) } := by decide
theorem test_X2_partial_before_busy :
    expectedError 0xbc000000000#44 (busy 3) = some (.partialWrite 0x40#7 0b0111#4) := by decide
theorem test_B21_wr_rsvd :
    after (exec (.wrRsvd 0b01101#5 0xffffffff#32) State.reset) = some { State.reset with resp := some (.write .okay) } := by
  decide
theorem test_X5_same_rejection_twice :
    after (exec (.wrBlock 3 0x1#32) { busy 3 with errBusy := true, faults := [.busyReject 0x4C#7] }) =
      some { busy 3 with errBusy := true, faults := [.busyReject 0x4C#7], resp := some (.write .okay) } := by decide

/-! ### Commands (section 2.4) -/

theorem test_K2_nop_busy : after (exec .cmdNop (busy 3)) = some { busy 3 with resp := some (.write .okay) } := by decide
theorem test_K3_init : (after (exec .cmdInit { State.reset with h := five 0, block := abcBlock, valid := true })).map
    (fun t => (t.h, t.valid, t.block)) = some (iv, false, abcBlock) := by decide
theorem test_K4_init_busy : after (exec .cmdInit (busy 3)) =
    some { busy 3 with errBusy := true, faults := [.busyReject 0x00#7], resp := some (.write .okay) } := by decide
theorem test_K5_next_accepted : (after (exec .cmdNext { State.reset with block := abcBlock })).map
    (fun t => (t.statusWord, t.h, t.pend)) = some (0x0#32, iv, some ⟨iv, abcBlock⟩) := by decide
theorem test_K5_next_completed : (after (exec .cmdNext { State.reset with block := abcBlock })).map
    (fun t => (t.complete.h, t.complete.statusWord)) =
      some (#v[0xa9993e36#32, 0x4706816a#32, 0xba3e2571#32, 0x7850c26c#32, 0x9cd0d89d#32], 0x3#32) := by decide +kernel
theorem test_K7_first_accepted : (after (exec .cmdFirst { State.reset with h := five 0x12345678#32 })).map
    (fun t => (t.h, t.pend)) = some (five 0x12345678#32, some ⟨iv, Vector.replicate 16 0⟩) := by decide
theorem test_K7_first_completed : (after (exec .cmdFirst { State.reset with h := five 0x12345678#32 })).map
    (·.complete.h) = some #v[0x92b404e5#32, 0x56588ced#32, 0x6c1acd4e#32, 0xbf053f68#32, 0x09f73a93#32] := by
  decide +kernel
theorem test_K9_clrerr : after (exec .cmdClrerr { busy 3 with errBusy := true, errCmd := true }) =
    some { busy 3 with resp := some (.write .okay) } := by decide
theorem test_K11_illegal : after (exec (.cmdIllegal 0x12#32) State.reset) =
    some { State.reset with errCmd := true, faults := [.illegalCmd 0x12#32], resp := some (.write .okay) } := by decide
theorem test_K12_illegal_busy : after (exec (.cmdIllegal 0xf#32) (busy 3)) =
    some { busy 3 with errCmd := true, faults := [.illegalCmd 0xf#32], resp := some (.write .okay) } := by decide

/-! ### Steps of the datapath and of reset (sections 2.3 and 2.6) -/

theorem test_Z1_reset_while_busy :
    after (step { busy 3 with
      h := five 7
      block := abcBlock
      errCmd := true
      faults := [.illegalCmd 0x5#32]
      inputs := [.reset, .txn .owner 0x02000000000#44] }) =
      some { State.reset with faults := [.illegalCmd 0x5#32], inputs := [.txn .owner 0x02000000000#44] } := by decide
theorem test_step_performs_the_transaction :
    (after (step { State.reset with inputs := [.txn .owner 0x05c00000000#44] })).map (·.resp) =
      some (some (.read .okay 0x0#32)) := by decide
theorem test_fetch_word_runs_next :
    (after (step ((busy 0).withFetchWord 44 0x00400000000))).map (·.resp) = some (some (.read .okay 0x0#32)) := by decide
theorem test_completion_step : (after (step (busy 0))).map (fun t => (t.statusWord, t.block, t.pend)) =
    some (0x3#32, State.reset.block, none) := by decide

/-! ### The compression (section 2.1) -/

theorem test_ch : ch 0xF0F0F0F0#32 0xCCCCCCCC#32 0xAAAAAAAA#32 = 0xCACACACA#32 := by decide
theorem test_parity : parity 0xF0F0F0F0#32 0xCCCCCCCC#32 0xAAAAAAAA#32 = 0x96969696#32 := by decide
theorem test_maj : maj 0xF0F0F0F0#32 0xCCCCCCCC#32 0xAAAAAAAA#32 = 0xE8E8E8E8#32 := by decide
theorem test_rotl_5 : rotl 5 0x80000001#32 = 0x00000030#32 := by decide
theorem test_rotl_30 : rotl 30 0x80000001#32 = 0x60000000#32 := by decide
theorem test_schedule_abc : ((schedule abcBlock).drop 16).take 4 = [0xc2c4c700#32, 0x0#32, 0x00000030#32, 0x85898e01#32] ∧
    scheduleWord abcBlock 79 = 0x822e0879#32 := by decide +kernel
theorem test_round_trace_39_40 :
    runRounds 0 ((schedule abcBlock).take 40) (initWorking iv) =
      ⟨0x32de1cba#32, 0x4c986405#32, 0xf718e5cf#32, 0x03d447f6#32, 0xf72eec32#32⟩ ∧
    runRounds 0 ((schedule abcBlock).take 41) (initWorking iv) =
      ⟨0xfc87dedf#32, 0x32de1cba#32, 0x53261901#32, 0xf718e5cf#32, 0x03d447f6#32⟩ := by decide +kernel
theorem test_compress_all_ones_block : compress iv (Vector.replicate 16 0xFFFFFFFF#32) =
    #v[0xbafbc2c8#32, 0x7c333226#32, 0x03f38e06#32, 0xc3e0f79c#32, 0x1f1b1475#32] := by decide +kernel
theorem test_circular_abc : compressCircular iv abcBlock =
    #v[0xa9993e36#32, 0x4706816a#32, 0xba3e2571#32, 0x7850c26c#32, 0x9cd0d89d#32] := by decide +kernel

/-! ### The host's protocol (sections 1 and 2.2) -/

/-- The bytes of the words. -/
def bytesOf (ws : List Word) : List Byte := ws.flatMap bytesBE

theorem test_sha1_empty : sha1 [] = bytesOf [0xda39a3ee#32, 0x5e6b4b0d#32, 0x3255bfef#32, 0x95601890#32, 0xafd80709#32] := by
  decide +kernel
theorem test_sha1_of_56_a : sha1 (List.replicate 56 0x61#8) =
    bytesOf [0xc2db330f#32, 0x6083854c#32, 0x99d4b5bf#32, 0xb6e8f29f#32, 0x201be699#32] := by decide +kernel
/-- S5, key "42", message "vapor". -/
theorem test_hmac_S5 : hmacSha1 [0x34#8, 0x32#8] [0x76#8, 0x61#8, 0x70#8, 0x6f#8, 0x72#8] =
    bytesOf [0xb15d2d34#32, 0xc729a064#32, 0x7a6f124d#32, 0x5afe1927#32, 0xe55a9d7c#32] := by decide +kernel
/-- S6 with 90_conflicts.md C1: password "password", salt "salt", one iteration, 20 bytes. -/
theorem test_pbkdf2_S6 :
    (match pbkdf2 (bytesOf [0x70617373#32, 0x776f7264#32]) (bytesOf [0x73616c74#32]) 1 20 with
      | .next out => out
      | .fault _ => []
      | .refused _ => []) =
      bytesOf [0x0c60c80f#32, 0x961f0e71#32, 0xf3a9b524#32, 0xaf601206#32, 0x2fe037a6#32] := by decide +kernel
/-- A load of one word of H does not end the refusal of `next`; a load of all five does (R249, R252). -/
theorem test_book_one_word : (⟨State.reset, [], [0, 1, 2, 3, 4]⟩ : HostRun).book (.wrH2 0x0#32) = [0, 1, 3, 4] := by decide
theorem test_book_first : (⟨State.reset, [], [0, 1, 2, 3, 4]⟩ : HostRun).book .cmdFirst = [] := by decide
theorem test_book_first_rejected : (⟨busy 3, [], [0, 1, 2, 3, 4]⟩ : HostRun).book .cmdFirst = [0, 1, 2, 3, 4] := by decide
theorem test_ldblk_first_word : ((asmLdblk abcBlock).map AsmLine.word).head? = some 0xfc061626380#44 := by decide
theorem test_wr_strobed_word : (AsmLine.wrStrobed 0b0011#4 0x40#7 0x1234#32).word = 0x9c000001234#44 := by decide

/-! ### Witnesses: for each statement with hypotheses, a state and operands that meet them -/

/-- Every constructor has a well-formed term, the operands at the ends of their ranges among them. -/
theorem witness_DecodeEncodeRoundTrip :
    ([.rdCtrl, .rdStatus, .rdCoreId, .rdCoreVersion, .rdH0, .rdH1, .rdH2, .rdH3, .rdH4, .rdBlock 0, .rdBlock 15,
      .rdRsvd 0b00100#5, .rdRsvd 0b01111#5, .rdMisaligned 0x01#7, .rdMisaligned 0x7F#7, .cmdNop, .cmdInit, .cmdNext,
      .cmdFirst, .cmdClrerr, .cmdIllegal 0x5#32, .cmdIllegal 0xFFFFFFFF#32, .wrStatus 0#32, .wrCoreId 0#32,
      .wrCoreVersion 0#32, .wrH0 0#32, .wrH1 0#32, .wrH2 0#32, .wrH3 0#32, .wrH4 0#32, .wrBlock 0 0#32,
      .wrBlock 15 0xFFFFFFFF#32, .wrRsvd 0b00111#5 0#32, .wrRsvd 0b01101#5 0#32, .wrPartial 0b0000#4 0b00000#5 0#32,
      .wrPartial 0b1110#4 0b11111#5 0#32, .wrMisaligned 0b1111#4 0x01#7 0#32, .wrMisaligned 0b0000#4 0x7F#7 0#32] :
      List Instr).all Instr.wellFormed = true := by decide

theorem witness_EncodedWordWinsItsRow : (Instr.wrRsvd 0b00100#5 0xFFFFFFFF#32).wellFormed = true := by decide

/-- Two rows of one priority, and a word that hits the one. -/
theorem witness_RowsOfOnePriorityDisjoint :
    ∃ r ∈ opcodeTable, ∃ q ∈ opcodeTable, r.priority = q.priority ∧ r.mnemonic ≠ q.mnemonic ∧ r.hits 0x00400000000#44 = true :=
  ⟨readRows[1], by simp [opcodeTable, readRows], readRows[0], by simp [opcodeTable, readRows], by decide⟩

theorem witness_SpecWordsDecode : ∃ n : Nat, 2 ^ 44 ≤ n := ⟨2 ^ 44, by decide⟩

theorem witness_ReadsHaveNoSideEffect :
    Instr.isWrite .rdStatus = false ∧ (∀ addr, Instr.rdStatus ≠ .rdMisaligned addr) ∧
      Instr.isWrite (.rdMisaligned 0x01#7) = false := by simp [Instr.isWrite]

theorem witness_ChainWrite_ready :
    ((4 : Fin 5), 0x30#7, Instr.wrH4 1#32) ∈ [((0 : Fin 5), 0x20#7, Instr.wrH0 1#32), (1, 0x24#7, .wrH1 1#32),
      (2, 0x28#7, .wrH2 1#32), (3, 0x2C#7, .wrH3 1#32), (4, 0x30#7, .wrH4 1#32)] ∧ State.reset.pend = none := by decide

theorem witness_ChainWrite_busy :
    ((0 : Fin 5), 0x20#7, Instr.wrH0 1#32) ∈ [((0 : Fin 5), 0x20#7, Instr.wrH0 1#32), (1, 0x24#7, .wrH1 1#32),
      (2, 0x28#7, .wrH2 1#32), (3, 0x2C#7, .wrH3 1#32), (4, 0x30#7, .wrH4 1#32)] ∧ (busy 0).pend ≠ none := by decide

theorem witness_BlockWrite : State.reset.pend = none ∧ (busy 0).pend ≠ none := by decide

theorem witness_IdempotentWrites :
    Instr.wrBlock 15 1#32 ∈ [Instr.wrH0 1#32, .wrH1 1#32, .wrH2 1#32, .wrH3 1#32, .wrH4 1#32, .wrBlock 15 1#32] := by decide

theorem witness_WriteVisibleAtNextRead : State.reset.pend = none ∧
    (Instr.wrBlock 15 1#32, Instr.rdBlock 15) ∈ [(Instr.wrH0 1#32, Instr.rdH0), (.wrH1 1#32, .rdH1), (.wrH2 1#32, .rdH2),
      (.wrH3 1#32, .rdH3), (.wrH4 1#32, .rdH4), (.wrBlock 15 1#32, .rdBlock 15)] ∧
    Instr.cmdFirst ∈ [Instr.cmdNext, .cmdFirst] := by decide

theorem witness_InitCommand : State.reset.pend = none ∧ (busy 0).pend ≠ none := by decide
theorem witness_NextCommand : State.reset.pend = none ∧ (busy 1).pend ≠ none := by decide
theorem witness_FirstCommand : State.reset.pend = none ∧ (busy 2).pend ≠ none := by decide
theorem witness_FirstIsInitThenNext : State.reset.pend = none := by decide
theorem witness_BusyGateProtectsDatapath : (busy 0).pend ≠ none := by decide

/-- Each implication of the statement applies somewhere. -/
theorem witness_ResponseOfEveryTransaction :
    Instr.isWrite .cmdNop = true ∧ Instr.isWrite .rdH0 = false ∧
    answer (.wrPartial 0b0000#4 0b00000#5 0#32) State.reset = some (.write .slverr) ∧
    answer (.wrMisaligned 0b1111#4 0x01#7 0#32) State.reset = some (.write .slverr) ∧
    answer (.rdMisaligned 0x7F#7) State.reset = some (.read .slverr 0x0#32) := by decide

theorem witness_StepRunsDecodedTransaction_ready :
    ({ State.reset with inputs := [.txn .owner 0x0#44] } : State).inputs = .txn .owner 0x0#44 :: [] ∧
      ({ State.reset with inputs := [.txn .owner 0x0#44] } : State).pend = none := by decide

theorem witness_StepRunsDecodedTransaction_busy :
    ({ busy 1 with inputs := [.txn .owner 0x0#44, .reset] } : State).inputs = .txn .owner 0x0#44 :: [.reset] ∧
      ({ busy 1 with inputs := [.txn .owner 0x0#44, .reset] } : State).wait ≠ 0 := by decide

theorem witness_FetchWordRunsNext : decodeTableWord 44 0xf8000000002 = some .cmdNext := by decide

theorem witness_CompletionStep_due :
    (busy 0).pend = some ⟨iv, State.reset.block⟩ ∧ (∀ rest, (busy 0).inputs ≠ .reset :: rest) ∧ (busy 0).wait = 0 := by
  simp [busy, State.reset]

theorem witness_CompletionStep_waiting :
    (busy 1).pend = some ⟨iv, State.reset.block⟩ ∧ (∀ rest, (busy 1).inputs ≠ .reset :: rest) ∧ (busy 1).wait ≠ 0 ∧
      step (busy 1) = .next (busy 0) :=
  ⟨rfl, by simp [busy, State.reset], by decide, rfl⟩

theorem witness_CompletionIsEventual :
    ({ busy 2 with inputs := [.txn .owner 0x00400000000#44] } : State).pend = some ⟨iv, State.reset.block⟩ ∧
      ({ busy 2 with inputs := [.txn .owner 0x00400000000#44] } : State).hostOnly := by
  simp [busy, State.hostOnly]

theorem witness_ResetStep : ({ busy 2 with inputs := [.reset] } : State).inputs = .reset :: [] := by decide

/-- The invariant holds of a busy state. -/
theorem witness_StepKeepsInvariant : (busy 1).Inv ∧ step (busy 1) = .next (busy 0) :=
  ⟨{ faults_nodup := List.nodup_nil
     busy_not_valid := fun _ => rfl
     pend_block := by rintro p ⟨⟩; rfl
     pend_chain := by rintro p ⟨⟩; exact .inl rfl
     err_busy_recorded := by rintro ⟨⟩
     err_cmd_recorded := by rintro ⟨⟩
     slverr_zero := by rintro d ⟨⟩ }, rfl⟩

theorem witness_ErrorBitsSticky :
    step { busy 1 with errBusy := true, errCmd := true } = .next { busy 0 with errBusy := true, errCmd := true } ∧
      ({ busy 1 with errBusy := true, errCmd := true } : State).nextEvent = .idle := ⟨rfl, rfl⟩

theorem witness_FaultsOnlyGrow :
    step { busy 1 with faults := [.illegalCmd 0x5#32] } = .next { busy 0 with faults := [.illegalCmd 0x5#32] } ∧
      ErrorEvent.illegalCmd 0x5#32 ∈ [ErrorEvent.illegalCmd 0x5#32] := ⟨rfl, by decide⟩

/-- Both disjuncts of the conclusion occur: a completion, and a step that leaves a valid result alone. -/
theorem witness_ValidNeedsCompletion :
    step (busy 0) = .next (busy 0).complete ∧ (busy 0).complete.valid = true ∧
      step { State.reset with valid := true } = .next { State.reset with valid := true } := ⟨rfl, rfl, rfl⟩

theorem witness_OnlySecondMasterStops :
    State.reset.nextEvent ≠ .foreign ∧ ({ State.reset with inputs := [.txn .other 0x0#44] } : State).nextEvent = .foreign := by
  decide

theorem witness_RoundFunctionsBitwise : (0 : Nat) < 32 ∧ (31 : Nat) < 32 := by decide

/-- A step in each group, at its first and its last. -/
theorem witness_RoundGroups :
    (0 ≤ 19 ∧ 19 ≤ 19) ∧ (20 ≤ 20 ∧ 20 ≤ 39 ∧ 39 ≤ 39) ∧ (40 ≤ 40 ∧ 40 ≤ 59 ∧ 59 ≤ 59) ∧ (60 ≤ 60 ∧ 60 ≤ 79 ∧ 79 ≤ 79) := by
  decide

theorem witness_RotationMovesBits : (0 < 1 ∧ 1 < 32 ∧ 31 < 32) ∧ (0 < 31 ∧ 31 < 32 ∧ 0 < 32) := by decide
theorem witness_MessageSchedule : (16 ≤ 16 ∧ 16 ≤ 79) ∧ (16 ≤ 79 ∧ 79 ≤ 79) := by decide
theorem witness_CompressIsEightySteps : 0 < 80 ∧ 79 < 80 := by decide
theorem witness_ByteOrder : (List.replicate 64 0xFF#8).length = 64 := by decide
theorem witness_PaddingIsLeast : (([] : List Byte).length + 1 + 55) % 64 = 56 ∧ ([0x61#8].length + 1 + 118) % 64 = 56 := by decide
theorem witness_PaddedBlockCount : (List.replicate 55 0#8).length % 64 ≤ 55 ∧ ¬(List.replicate 56 0#8).length % 64 ≤ 55 := by
  decide

theorem witness_StreamingEquivalence : 8 * ([[0x61#8], [], [0x62#8]] : List (List Byte)).flatten.length < 2 ^ 64 := by decide

theorem witness_PbkdfOutputs :
    1 ≤ 1 ∧ [0x70#8] ≠ [] ∧ [0x73#8] ≠ [] ∧ 8 * [0x70#8].length < 2 ^ 64 ∧ 8 * (64 + ([0x73#8].length + 4)) < 2 ^ 64 ∧ 20 + 1 ≤ (2 ^ 32 - 1) * 20 ∧ (2 ^ 32 - 1) * 20 + 0 ≤ (2 ^ 32 - 1) * 20 := by decide

theorem witness_HostMisuseStops_long : ∃ m : List Byte, 2 ^ 64 ≤ 8 * m.length :=
  ⟨List.replicate (2 ^ 61) 0, by rw [List.length_replicate]; decide⟩

theorem witness_HostMisuseStops_chunk :
    ({ HashContext.new with totalBits := 0xFFFFFFFFFFFFFFF8#64 } : HashContext).finished = false ∧
    2 ^ 64 ≤ ({ HashContext.new with totalBits := 0xFFFFFFFFFFFFFFF8#64 } : HashContext).totalBits.toNat + 8 * [0#8].length := by
  decide

theorem witness_HostMisuseStops_hmac : ∃ key msg : List Byte, 2 ^ 64 ≤ 8 * key.length ∨ 2 ^ 64 ≤ 8 * (64 + msg.length) :=
  ⟨[], List.replicate (2 ^ 61) 0, by rw [List.length_replicate]; decide⟩

theorem witness_HostMisuseStops_core_chunk :
    ({ CoreContext.new ⟨State.reset, [], []⟩ with totalBits := 0xFFFFFFFFFFFFFFF8#64 } : CoreContext).finished = false ∧
    2 ^ 64 ≤ ({ CoreContext.new ⟨State.reset, [], []⟩ with totalBits := 0xFFFFFFFFFFFFFFF8#64 } : CoreContext).totalBits.toNat +
      8 * [0#8].length := by decide

theorem witness_HostMisuseStops_ended : ({ core := State.reset, reads := [], stale := [4] } : HostRun).stale ≠ [] := by decide

theorem witness_HostMisuseStops_start :
    (asmLdh iv).map HostOp.txn ∈ [[.txn asmFirst], [.txn asmInit], (asmLdh iv).map HostOp.txn] := by decide

theorem witness_HostMisuseStops_pbkdf2 :
    (0 = 0 ∨ [0#8] = [] ∨ [0#8] = [] ∨ (2 ^ 32 - 1) * 20 < 0) ∧
    (1 = 0 ∨ [0#8] = [] ∨ [0#8] = [] ∨ (2 ^ 32 - 1) * 20 < (2 ^ 32 - 1) * 20 + 1) := by decide

theorem witness_HashSequenceYieldsDigest : 8 * ([] : List Byte).length < 2 ^ 64 := by decide
theorem witness_HmacSequenceYieldsHmac :
    8 * [0x34#8].length < 2 ^ 64 ∧ 8 * (64 + (List.replicate 65 0#8).length) < 2 ^ 64 := by decide

theorem witness_PbkdfSequenceYieldsKey :
    1 ≤ 1 ∧ [0x70#8] ≠ [] ∧ [0x73#8] ≠ [] ∧ (2 ^ 32 - 1) * 20 ≤ (2 ^ 32 - 1) * 20 ∧ 8 * [0x70#8].length < 2 ^ 64 ∧
      8 * (64 + ([0x73#8].length + 4)) < 2 ^ 64 := by decide

end Sys2Proof.Tests
end

section
/-! The rotation of spec/00_scope.md R11. -/

namespace Sys2Proof.Machine

/-- The model's shifts and `|||` are the library's rotation, so the library's lemmas speak of `rotl`. -/
theorem rotl_eq_rotateLeft {n : Nat} (hn : n < 32) (x : Word) : rotl n x = x.rotateLeft n := by
  rw [BitVec.rotateLeft_def, Nat.mod_eq_of_lt hn, rotl]

/-- Bits shifted past place 31 come back in at the bottom; the others move up by `n`. -/
theorem getLsbD_rotl {n i : Nat} (hn : n < 32) (hi : i < 32) (x : Word) :
    (rotl n x).getLsbD i = if i < n then x.getLsbD (32 - n + i) else x.getLsbD (i - n) := by
  rw [rotl_eq_rotateLeft hn, BitVec.getLsbD_rotateLeft, Nat.mod_eq_of_lt hn, decide_eq_true hi, Bool.true_and,
    Bool.cond_decide]

/-- Settles O46: a bit that stays in the word moves up by `n`; one that would leave it comes back in `32` places lower. -/
theorem rotationMovesBits : Obligations.RotationMovesBits := by
  intro n x b _ hn hb
  rw [getLsbD_rotl hn (Nat.mod_lt _ (by decide))]
  rcases Nat.lt_or_ge (b + n) 32 with hstay | hwrap
  · rw [Nat.mod_eq_of_lt hstay, if_neg (by omega), Nat.add_sub_cancel]
  · have hplace : (b + n) % 32 = b + n - 32 := by omega
    have hsource : 32 - n + (b + n - 32) = b := by omega
    rw [hplace, if_pos (by omega), hsource]

end Sys2Proof.Machine
end

section
/-! The registers, the invariant and the byte order of spec/10_state.md: what every step keeps, what a read of STATUS
answers, and how byte strings map onto the register file. -/

namespace Sys2Proof.Machine

/-! ### A step that is a next state -/

/-- What a step to a next state was: reset, the completion of a pending compression, a transaction of the owner, or an
idle step. -/
theorem step_next_cases {s t : State} (h : step s = .next t) :
    (s.nextEvent = .reset ∧ t = s.popInput.takeReset) ∨
    (∃ p, s.pend = some p ∧ t = { s with h := compress p.hin p.m, pend := none, valid := true }) ∨
    (∃ w, s.nextEvent = .transaction w ∧ exec (decode w) s.popInput.tick = .next t) ∨
    (s.nextEvent = .idle ∧ t = s.tick) := by
  rcases step_cases s with ⟨he, hs⟩ | ⟨he, hs⟩ | ⟨w, he, hs⟩ | ⟨-, hs⟩ | ⟨he, hs⟩ <;> rw [hs] at h
  · exact .inl ⟨he, (Host.Outcome.next.inj h).symm⟩
  · have hbusy : s.pend ≠ none := ((State.due_iff s).mp ((nextEvent_completion_iff s).mp he).1).1
    obtain ⟨p, hp⟩ := Option.ne_none_iff_exists'.mp hbusy
    exact .inr (.inl ⟨p, hp, (Host.Outcome.next.inj h).symm.trans (State.complete_of_some hp)⟩)
  · exact .inr (.inr (.inl ⟨w, he, h⟩))
  · cases h
  · exact .inr (.inr (.inr ⟨he, (Host.Outcome.next.inj h).symm⟩))

/-- `exec_effect` for a known next state. -/
theorem exec_next_effect {i : Instr} {s t : State} (h : exec i s = .next t) :
    ∃ u r, t = u.respond r ∧ Effect s u ∧ ∀ d, r = .read .slverr d → d = 0 := by
  obtain ⟨u, r, hexec, heffect, hzero⟩ := exec_effect i s
  exact ⟨u, r, Host.Outcome.next.inj (h.symm.trans hexec), heffect, hzero⟩

/-! ### The invariant under each operation -/

/-- Settles O39: at reset FAULT is empty, no error bit is set, nothing is pending and nothing was answered. -/
theorem resetHasInvariant : Obligations.ResetHasInvariant where
  faults_nodup := List.nodup_nil
  busy_not_valid := fun _ => rfl
  pend_block := fun _ hp => nomatch hp
  pend_chain := fun _ hp => nomatch hp
  err_busy_recorded := fun hb => nomatch hb
  err_cmd_recorded := fun hb => nomatch hb
  slverr_zero := fun _ hr => nomatch hr

/-- Reset leaves FAULT, but no bit that claims an event in it. -/
theorem State.Inv.takeReset {s : State} (h : s.Inv) : s.takeReset.Inv :=
  { resetHasInvariant with
    faults_nodup := h.faults_nodup
    err_busy_recorded := by simp
    err_cmd_recorded := by simp }

theorem State.Inv.popInput {s : State} (h : s.Inv) : s.popInput.Inv := { h with }

theorem State.Inv.tick {s : State} (h : s.Inv) : s.tick.Inv := { h with }

theorem State.Inv.respond {s : State} (h : s.Inv) {r : Response} (hr : ∀ d, r = .read .slverr d → d = 0) :
    (s.respond r).Inv :=
  { h with slverr_zero := fun d hd => hr d (Option.some.inj hd) }

/-- The completion sets VALID, and nothing is pending after it, whatever its result. -/
theorem State.Inv.with_completed_chain {s : State} (h : s.Inv) (h' : Chain) :
    ({ s with h := h', pend := none, valid := true } : State).Inv :=
  { h with busy_not_valid := by simp, pend_block := by simp, pend_chain := by simp }

/-- Raising an error sets at most the bit of the event it records. -/
theorem State.Inv.raise {s : State} (h : s.Inv) (e : ErrorEvent) : (s.raise e).Inv where
  faults_nodup := nodup_recordEvent h.faults_nodup
  busy_not_valid := by simpa using h.busy_not_valid
  pend_block := by simpa using h.pend_block
  pend_chain := by simpa using h.pend_chain
  err_busy_recorded := by
    have hold (hb : s.errBusy = true) : ∃ a, .busyReject a ∈ recordEvent e s.faults :=
      (h.err_busy_recorded hb).imp fun _ ha => mem_recordEvent.mpr (.inr ha)
    cases e with
    | busyReject a => exact fun _ => ⟨a, mem_recordEvent.mpr (.inl rfl)⟩
    | illegalCmd | misaligned | partialWrite => exact hold
  err_cmd_recorded := by
    have hold (hb : s.errCmd = true) : ∃ d, .illegalCmd d ∈ recordEvent e s.faults :=
      (h.err_cmd_recorded hb).imp fun _ hd => mem_recordEvent.mpr (.inr hd)
    cases e with
    | illegalCmd d => exact fun _ => ⟨d, mem_recordEvent.mpr (.inl rfl)⟩
    | busyReject | misaligned | partialWrite => exact hold
  slverr_zero := by simpa using h.slverr_zero

theorem State.Inv.clearErrors {s : State} (h : s.Inv) : s.clearErrors.Inv :=
  { h with err_busy_recorded := by simp, err_cmd_recorded := by simp }

/-- The datapath's state is written only where nothing is pending, so no snapshot goes stale; an acceptance takes a fresh
snapshot and drops VALID. -/
theorem Effect.keeps_inv {s u : State} (heffect : Effect s u) (h : s.Inv) : u.Inv := by
  cases heffect with
  | none => exact h
  | error e => exact h.raise e
  | clear => exact h.clearErrors
  | writeH i d ready =>
    exact { h with busy_not_valid := by simp, pend_chain := by simp [ready] }
  | writeBlock i d ready =>
    exact { h with pend_block := by simp [ready] }
  | loadIv ready =>
    exact { h with busy_not_valid := by simp, pend_chain := by simp [ready] }
  | accept hin ready from_h_or_iv =>
    exact { h with
      busy_not_valid := by simp
      pend_block := by simp
      pend_chain := by simpa using from_h_or_iv }

theorem exec_keeps_inv {i : Instr} {s t : State} (h : s.Inv) (hexec : exec i s = .next t) : t.Inv := by
  obtain ⟨u, r, rfl, heffect, hzero⟩ := exec_next_effect hexec
  exact (heffect.keeps_inv h).respond hzero

/-- Settles O38, by the agents of a step: each keeps the invariant. -/
theorem stepKeepsInvariant : Obligations.StepKeepsInvariant := by
  intro s t hinv hstep
  rcases step_next_cases hstep with ⟨-, rfl⟩ | ⟨p, hp, rfl⟩ | ⟨w, -, hexec⟩ | ⟨-, rfl⟩
  · exact hinv.popInput.takeReset
  · exact hinv.with_completed_chain _
  · exact exec_keeps_inv hinv.popInput.tick hexec
  · exact hinv.tick

/-- Settles O37: each value is read off `State.reset`. -/
theorem resetStateValues : Obligations.ResetStateValues := by
  refine ⟨?_, rfl, fun k => ?_, rfl, rfl⟩
  · decide
  · exact Vector.getElem_replicate k.isLt

/-! ### STATUS -/

/-- The bit stands at its place and nowhere else. -/
theorem getLsbD_statusBit (b : Bool) {place : Nat} (hplace : place < 32) (i : Nat) :
    (statusBit b place).getLsbD i = (decide (i = place) && b) := by
  simp only [statusBit, BitVec.getLsbD_shiftLeft, BitVec.getLsbD_setWidth, BitVec.getLsbD_ofBool]
  rcases lt_trichotomy i place with hlt | rfl | hgt
  · simp [hlt, hlt.ne]
  · simp [hplace]
  · simp [hgt.ne', Nat.sub_ne_zero_of_lt hgt]

theorem State.getLsbD_statusWord (s : State) (i : Nat) :
    s.statusWord.getLsbD i =
      if i = 0 then s.ready else if i = 1 then s.valid
      else if i = 8 then s.errBusy else if i = 9 then s.errCmd else false := by
  simp only [State.statusWord, BitVec.getLsbD_or, getLsbD_statusBit _ (by decide : 0 < 32),
    getLsbD_statusBit _ (by decide : 1 < 32), getLsbD_statusBit _ (by decide : 8 < 32),
    getLsbD_statusBit _ (by decide : 9 < 32)]
  split_ifs <;> simp [*]

/-- Settles O9: the answer is `statusWord`, bit by bit. -/
theorem statusRead : Obligations.StatusRead :=
  fun s => ⟨s.statusWord, rfl, s.getLsbD_statusWord⟩

/-! ### The error bits -/

/-- The bits that are sticky, ERR_BUSY and ERR_CMD, are set in `t` where they are in `s`. -/
def State.ErrorBitsKept (s t : State) : Prop :=
  (s.errBusy = true → t.errBusy = true) ∧ (s.errCmd = true → t.errCmd = true)

theorem State.ErrorBitsKept.of_eq {s t : State} (hbusy : t.errBusy = s.errBusy) (hcmd : t.errCmd = s.errCmd) :
    s.ErrorBitsKept t :=
  ⟨hbusy.trans, hcmd.trans⟩

theorem State.errorBitsKept_raise (s : State) (e : ErrorEvent) : s.ErrorBitsKept (s.raise e) := by
  cases e <;> simp [State.ErrorBitsKept]

theorem State.errorBitsKept_gated {s : State} (a : Offset) {act : State → State} (h : s.ErrorBitsKept (act s)) :
    s.ErrorBitsKept (s.gated a act) := by
  by_cases hp : s.pend = none
  · rwa [State.gated_of_ready hp]
  · rw [State.gated_of_busy hp]
    exact s.errorBitsKept_raise _

/-- CLRERR is the one transaction that takes an error bit away (R38, R39). -/
theorem exec_keeps_error_bits {i : Instr} (hi : i ≠ .cmdClrerr) (s : State) :
    ∃ u r, exec i s = .next (u.respond r) ∧ s.ErrorBitsKept u := by
  cases i
  case cmdClrerr => exact absurd rfl hi
  case rdMisaligned | wrMisaligned | wrPartial | cmdIllegal =>
    exact ⟨_, _, rfl, s.errorBitsKept_raise _⟩
  case cmdInit | cmdNext | cmdFirst | wrBlock | wrH0 | wrH1 | wrH2 | wrH3 | wrH4 =>
    exact ⟨_, _, rfl, State.errorBitsKept_gated _ (.of_eq rfl rfl)⟩
  all_goals exact ⟨_, _, rfl, .of_eq rfl rfl⟩

/-- Settles O40, by the agents of a step: only reset and CLRERR clear a bit. -/
theorem errorBitsSticky : Obligations.ErrorBitsSticky := by
  intro s t hstep hreset hclear
  rcases step_next_cases hstep with ⟨he, -⟩ | ⟨p, -, rfl⟩ | ⟨w, he, hexec⟩ | ⟨-, rfl⟩
  · exact absurd he hreset
  · exact ⟨id, id⟩
  · obtain ⟨u, r, hu, hkept⟩ := exec_keeps_error_bits (hclear w he) s.popInput.tick
    rw [Host.Outcome.next.inj (hexec.symm.trans hu)]
    exact hkept
  · exact ⟨id, id⟩

/-! ### FAULT -/

/-- Settles O41, by the agents of a step. -/
theorem faultsOnlyGrow : Obligations.FaultsOnlyGrow := by
  intro s t hstep x hx
  rcases step_next_cases hstep with ⟨-, rfl⟩ | ⟨p, hp, rfl⟩ | ⟨w, -, hexec⟩ | ⟨-, rfl⟩
  · exact hx
  · exact hx
  · obtain ⟨u, r, rfl, heffect, -⟩ := exec_next_effect hexec
    exact heffect.faults_grow hx
  · exact hx

/-! ### VALID and the busy gate -/

/-- A transaction never sets VALID, and one that leaves it set leaves H and PEND as they were. -/
theorem Effect.of_valid {s u : State} (heffect : Effect s u) (hvalid : u.valid = true) :
    s.valid = true ∧ u.h = s.h ∧ u.pend = s.pend := by
  cases heffect with
  | none | clear | writeBlock => exact ⟨hvalid, rfl, rfl⟩
  | error e => simpa using hvalid
  | writeH | loadIv | accept => cases hvalid

/-- Settles O42, by the agents of a step: only the completion sets VALID. -/
theorem validNeedsCompletion : Obligations.ValidNeedsCompletion := by
  intro s t hstep hvalid
  rcases step_next_cases hstep with ⟨-, rfl⟩ | ⟨p, hp, rfl⟩ | ⟨w, -, hexec⟩ | ⟨-, rfl⟩
  · cases hvalid
  · exact .inl ⟨p, hp, rfl, rfl⟩
  · obtain ⟨u, r, rfl, heffect, -⟩ := exec_next_effect hexec
    exact .inr (heffect.of_valid hvalid)
  · exact .inr ⟨hvalid, rfl, rfl⟩

/-- Settles O28: on a busy block a transaction has only effects that leave the datapath alone. -/
theorem busyGateProtectsDatapath : Obligations.BusyGateProtectsDatapath := by
  intro i s hbusy
  obtain ⟨u, r, hexec, heffect, -⟩ := exec_effect i s
  refine ⟨u.respond r, hexec, ?_⟩
  rcases heffect.of_busy hbusy with rfl | ⟨e, rfl⟩ | rfl <;> simp

/-! ### Byte order -/

/-- `bytes_be` gives back the four bytes `be32` was made of (R11). -/
@[simp] theorem bytesBE_be32 (b0 b1 b2 b3 : Byte) : bytesBE (be32 b0 b1 b2 b3) = [b0, b1, b2, b3] := by
  simp only [bytesBE, be32, List.cons.injEq, and_true]
  refine ⟨?_, ?_, ?_, BitVec.extractLsb'_append_eq_right⟩
  · rw [BitVec.extractLsb'_append_eq_of_le (by decide), BitVec.extractLsb'_append_eq_of_le (by decide)]
    exact BitVec.extractLsb'_append_eq_left
  · rw [BitVec.extractLsb'_append_eq_of_le (by decide), BitVec.extractLsb'_append_eq_of_le (by decide)]
    exact BitVec.extractLsb'_append_eq_right
  · rw [BitVec.extractLsb'_append_eq_of_le (by decide)]
    exact BitVec.extractLsb'_append_eq_right

theorem getElem?_bytesBE (w : Word) {j : Nat} (hj : j < 4) :
    (bytesBE w)[j]? = some (w.extractLsb' (24 - 8 * j) 8) := by
  interval_cases j <;> rfl

@[simp] theorem length_bytesBE (w : Word) : (bytesBE w).length = 4 := rfl

/-- The bytes of a list of words, four to a word. -/
theorem getElem?_flatMap_bytesBE (ws : List Word) (i : Nat) {j : Nat} (hj : j < 4) :
    (ws.flatMap bytesBE)[4 * i + j]? = ws[i]?.map fun w => w.extractLsb' (24 - 8 * j) 8 := by
  induction ws generalizing i with
  | nil => rfl
  | cons w ws ih =>
    rw [List.flatMap_cons]
    cases i with
    | zero =>
      rw [List.getElem?_append_left (by simp; omega), Nat.mul_zero, Nat.zero_add, getElem?_bytesBE w hj]
      rfl
    | succ i =>
      have hrest : 4 * (i + 1) + j - (bytesBE w).length = 4 * i + j := by simp; omega
      rw [List.getElem?_append_right (by simp; omega), hrest, ih i, List.getElem?_cons_succ]

theorem length_chainBytes (h : Chain) : (chainBytes h).length = 20 := by
  simp [chainBytes, List.length_flatMap]

theorem getElem?_chainBytes (h : Chain) (i : Fin 5) {j : Nat} (hj : j < 4) :
    (chainBytes h)[4 * i.val + j]? = some (h[i].extractLsb' (24 - 8 * j) 8) := by
  rw [chainBytes, getElem?_flatMap_bytesBE _ _ hj]
  simp

/-- Byte `j` of word `i` of a block is byte `4 * i + j` of the string. -/
theorem extractLsb'_blockOfBytes (bs : List Byte) {i j : Nat} (hi : i < 16) (hj : j < 4) :
    (blockOfBytes bs)[i].extractLsb' (24 - 8 * j) 8 = bs.getD (4 * i + j) 0 := by
  refine Option.some.inj ((getElem?_bytesBE _ hj).symm.trans ?_)
  rw [blockOfBytes, Vector.getElem_ofFn, bytesBE_be32]
  interval_cases j <;> rfl

/-- Settles O51: byte `k` is byte `k % 4` of word `k / 4`. -/
theorem byteOrder : Obligations.ByteOrder := by
  refine ⟨fun bs hlen k => ?_, fun h => ⟨length_chainBytes h, fun i j => getElem?_chainBytes h i j.isLt⟩⟩
  have hk : k.val < bs.length := by omega
  have hbyte := extractLsb'_blockOfBytes bs (i := k.val / 4) (j := k.val % 4) (by omega) (by omega)
  rw [hbyte, Nat.div_add_mod, List.getElem?_eq_getElem hk, List.getD_eq_getElem bs 0 hk]

end Sys2Proof.Machine
end

section
/-! The register window of spec/20_memory.md: reads without side effects, the idempotence and the visibility of writes, and
where the transactions fall between the steps of the datapath. -/

namespace Sys2Proof.Machine

/-! ### Reads -/

/-- An aligned read answers OKAY and does nothing else (R79, R138). -/
theorem exec_alignedRead {i : Instr} (hread : i.isWrite = false) (haligned : ∀ addr, i ≠ .rdMisaligned addr) (s : State) :
    ∃ d, exec i s = .next (s.answerRead d) := by
  cases i
  case rdMisaligned addr => exact absurd rfl (haligned addr)
  case rdCtrl | rdStatus | rdCoreId | rdCoreVersion | rdH0 | rdH1 | rdH2 | rdH3 | rdH4 | rdBlock | rdRsvd =>
    exact ⟨_, rfl⟩
  all_goals cases hread

/-- Settles O13: a misaligned read adds to FAULT alone, any other read changes only what the bus carries. -/
theorem readsHaveNoSideEffect : Obligations.ReadsHaveNoSideEffect := by
  intro i s hread
  by_cases hmisaligned : ∃ addr, i = .rdMisaligned addr
  · obtain ⟨addr, rfl⟩ := hmisaligned
    exact ⟨(s.raise (.misaligned addr)).refuseRead, rfl, rfl, fun haligned => absurd rfl (haligned addr)⟩
  · obtain ⟨d, hexec⟩ := exec_alignedRead hread (not_exists.mp hmisaligned) s
    exact ⟨s.answerRead d, hexec, rfl, fun _ => rfl⟩

/-! ### Reads and writes of H by index -/

theorem exec_readChain (k : Fin 5) (s : State) : exec (readChain k) s = .next (s.answerRead (s.readH k)) := by
  fin_cases k <;> rfl

theorem exec_writeChain (k : Fin 5) (d : Word) (s : State) :
    exec (writeChain k d) s = .next (s.gated (hOffset k) (State.writeH k d)).answerWrite := by
  fin_cases k <;> rfl

/-! ### Writing twice -/

/-- FAULT is a set and the error bits are sticky, so the second of two equal errors leaves no trace (R275). -/
theorem State.raise_answered_raise (e : ErrorEvent) (s : State) :
    (s.raise e).answerWrite.raise e = (s.raise e).answerWrite := by
  cases e <;> simp [State.raise, State.flagError, State.answerWrite, State.respond, recordEvent_twice]

theorem State.writeH_answered_writeH (k : Fin 5) (d : Word) (s : State) :
    (s.writeH k d).answerWrite.writeH k d = (s.writeH k d).answerWrite := by
  simp [State.writeH, State.answerWrite, State.respond]

theorem State.writeBlock_answered_writeBlock (k : Fin 16) (d : Word) (s : State) :
    (s.writeBlock k d).answerWrite.writeBlock k d = (s.writeBlock k d).answerWrite := by
  simp [State.writeBlock, State.answerWrite, State.respond]

/-- An idempotent action that starts no compression is idempotent behind the busy gate: both times it is performed, or
both times it is rejected. -/
theorem State.gated_answered_gated {s : State} {a : Offset} {act : State → State} (hpend : (act s).pend = s.pend)
    (hact : act (act s).answerWrite = (act s).answerWrite) :
    (s.gated a act).answerWrite.gated a act = (s.gated a act).answerWrite := by
  by_cases hready : s.pend = none
  · have hstill : (act s).answerWrite.pend = none := hpend.trans hready
    rw [State.gated_of_ready hready, State.gated_of_ready hstill, hact]
  · have hbusy : (s.raise (.busyReject a)).answerWrite.pend ≠ none := by simpa [State.answerWrite] using hready
    rw [State.gated_of_busy hready, State.gated_of_busy hbusy, State.raise_answered_raise]

/-- A transaction that is such an action, and no more than its answer beside it, has the same effect twice as once. -/
theorem exec_twice_of_gated {i : Instr} {a : Offset} {act : State → State}
    (hexec : ∀ s, exec i s = .next (s.gated a act).answerWrite) {s : State} (hpend : (act s).pend = s.pend)
    (hact : act (act s).answerWrite = (act s).answerWrite) : ∃ t, exec i s = .next t ∧ exec i t = .next t := by
  refine ⟨_, hexec s, ?_⟩
  rw [hexec, State.gated_answered_gated hpend hact]
  rfl

theorem exec_writeChain_twice (k : Fin 5) (d : Word) (s : State) :
    ∃ t, exec (writeChain k d) s = .next t ∧ exec (writeChain k d) t = .next t :=
  exec_twice_of_gated (exec_writeChain k d) rfl (s.writeH_answered_writeH k d)

theorem exec_wrBlock_twice (k : Fin 16) (d : Word) (s : State) :
    ∃ t, exec (.wrBlock k d) s = .next t ∧ exec (.wrBlock k d) t = .next t :=
  exec_twice_of_gated (fun _ => rfl) rfl (s.writeBlock_answered_writeBlock k d)

/-- Settles O19: a write of H or of BLOCK is an idempotent action behind the busy gate. -/
theorem idempotentWrites : Obligations.IdempotentWrites := by
  intro d k i s hi
  simp only [List.mem_cons, List.not_mem_nil, or_false] at hi
  rcases hi with rfl | rfl | rfl | rfl | rfl | rfl
  · exact exec_writeChain_twice 0 d s
  · exact exec_writeChain_twice 1 d s
  · exact exec_writeChain_twice 2 d s
  · exact exec_writeChain_twice 3 d s
  · exact exec_writeChain_twice 4 d s
  · exact exec_wrBlock_twice k d s

/-! ### The read after a write or a command -/

theorem exec_readChain_after_writeChain {s : State} (hready : s.pend = none) (k : Fin 5) (d : Word) :
    ∃ t u, exec (writeChain k d) s = .next t ∧ exec (readChain k) t = .next u ∧ u.resp = some (.read .okay d) := by
  refine ⟨_, _, exec_writeChain k d s, exec_readChain k _, ?_⟩
  rw [State.gated_of_ready hready]
  simp [State.answerRead, State.answerWrite, State.readH]

theorem exec_rdBlock_after_wrBlock {s : State} (hready : s.pend = none) (k : Fin 16) (d : Word) :
    ∃ t u, exec (.wrBlock k d) s = .next t ∧ exec (.rdBlock k) t = .next u ∧ u.resp = some (.read .okay d) := by
  refine ⟨_, _, rfl, rfl, ?_⟩
  rw [State.gated_of_ready hready]
  simp [State.answerRead, State.answerWrite, State.readBlock]

/-- After an acceptance READY is 0. -/
theorem exec_rdStatus_after_accept {c : Instr} {s : State} {hin : Chain}
    (haccept : exec c s = .next (s.gated ctrlOffset (State.accept hin)).answerWrite) (hready : s.pend = none) :
    ∃ t u v, exec c s = .next t ∧ exec .rdStatus t = .next u ∧ u.resp = some (.read .okay v) ∧ v.getLsbD 0 = false := by
  refine ⟨_, _, _, haccept, rfl, rfl, ?_⟩
  rw [State.gated_of_ready hready, State.getLsbD_statusWord, if_pos rfl]
  rfl

/-- Settles O20: on a block that is not busy the gate lets the write or the command through, and the read sees it. -/
theorem writeVisibleAtNextRead : Obligations.WriteVisibleAtNextRead := by
  intro d k s hready
  constructor
  · intro w r hwr
    simp only [List.mem_cons, List.not_mem_nil, or_false, Prod.mk.injEq] at hwr
    rcases hwr with ⟨rfl, rfl⟩ | ⟨rfl, rfl⟩ | ⟨rfl, rfl⟩ | ⟨rfl, rfl⟩ | ⟨rfl, rfl⟩ | ⟨rfl, rfl⟩
    · exact exec_readChain_after_writeChain hready 0 d
    · exact exec_readChain_after_writeChain hready 1 d
    · exact exec_readChain_after_writeChain hready 2 d
    · exact exec_readChain_after_writeChain hready 3 d
    · exact exec_readChain_after_writeChain hready 4 d
    · exact exec_rdBlock_after_wrBlock hready k d
  · intro c hc
    simp only [List.mem_cons, List.not_mem_nil, or_false] at hc
    rcases hc with rfl | rfl
    · exact exec_rdStatus_after_accept rfl hready
    · exact exec_rdStatus_after_accept rfl hready

/-! ### The completion among the steps -/

theorem State.due_eq_false_iff (s : State) : s.due = false ↔ s.pend = none ∨ s.wait ≠ 0 := by
  rw [← Bool.not_eq_true, State.due_iff, not_and_or, not_not]

theorem nextEvent_reset_iff (s : State) : s.nextEvent = .reset ↔ ∃ rest, s.inputs = .reset :: rest := by
  unfold State.nextEvent
  split <;> rename_i h <;> cases s.due <;> simp [h]

theorem step_of_completion {s : State} (h : s.nextEvent = .completion) : step s = .next s.complete := by
  simp [step, h]

theorem step_of_transaction {s : State} {w : TxnWord} (h : s.nextEvent = .transaction w) :
    step s = exec (decode w) s.popInput.tick := by
  simp [step, h]

/-- Where the completion of a busy block is not the next step, the step is one of its host or idle: it leaves the datapath
alone and brings the completion one step nearer. -/
theorem step_of_waiting {s t : State} (hbusy : s.pend ≠ none) (hreset : ∀ rest, s.inputs ≠ .reset :: rest)
    (hwait : s.wait ≠ 0) (hstep : step s = .next t) :
    t.h = s.h ∧ t.valid = s.valid ∧ t.pend = s.pend ∧ t.wait = s.wait - 1 := by
  rcases step_cases s with ⟨he, -⟩ | ⟨he, -⟩ | ⟨w, -, hs⟩ | ⟨-, hs⟩ | ⟨-, hs⟩
  · obtain ⟨rest, hrest⟩ := (nextEvent_reset_iff s).mp he
    exact absurd hrest (hreset rest)
  · obtain ⟨hdue, -⟩ := (nextEvent_completion_iff s).mp he
    exact absurd ((State.due_iff s).mp hdue).2 hwait
  · obtain ⟨u, hexec, hh, -, hvalid, hpend, hwait'⟩ := busyGateProtectsDatapath (decode w) s.popInput.tick hbusy
    obtain rfl : u = t := Host.Outcome.next.inj (hexec.symm.trans (hs.symm.trans hstep))
    exact ⟨hh, hvalid, hpend, hwait'⟩
  · cases hs.symm.trans hstep
  · obtain rfl : s.tick = t := Host.Outcome.next.inj (hs.symm.trans hstep)
    exact ⟨rfl, rfl, rfl, rfl⟩

/-- Settles O34, by whether the free position of the completion is reached. -/
theorem completionStep : Obligations.CompletionStep := by
  intro s p hp hreset
  have hbusy : s.pend ≠ none := by simp [hp]
  constructor
  · intro hwait
    have hdue : s.due = true := (State.due_iff s).mpr ⟨hbusy, hwait⟩
    rw [step_of_completion ((nextEvent_completion_iff s).mpr ⟨hdue, hreset⟩), State.complete_of_some hp]
  · intro hwait t hstep
    obtain ⟨hh, hvalid, hpend, hwait'⟩ := step_of_waiting hbusy hreset hwait hstep
    exact ⟨hh, hvalid, hpend.trans hp, by omega⟩

/-- Settles O32: the next event is the transaction, and `popInput` and `tick` are what the step does before it. -/
theorem stepRunsDecodedTransaction : Obligations.StepRunsDecodedTransaction := by
  intro s w rest hinputs hnotDue
  have hevent : s.nextEvent = .transaction w := nextEvent_of_txn hinputs ((State.due_eq_false_iff s).mpr hnotDue)
  rw [step_of_transaction hevent]
  simp [State.tick, State.popInput, hinputs]

end Sys2Proof.Machine
end

section
/-! The transaction encoding of spec/30_encoding.md: the decoder by fields and the encoder undo each other, and the opcode
map read by priority decides the same. -/

namespace Sys2Proof

/-! ### The target of an offset -/

/-- The aligned offset that selects a target (R33). -/
def Target.offset : Target → Offset
  | .ctrl => ctrlOffset
  | .status => 0x04#7
  | .coreId => 0x08#7
  | .coreVersion => 0x0C#7
  | .chain i => hOffset i
  | .block i => blockOffset i
  | .reserved a => alignedOffset a

/-- A target is named `reserved` only where its offset is (R44). -/
def Target.wellFormed : Target → Bool
  | .reserved a => reservedIndex a
  | _ => true

theorem wellFormed_target (addr : Offset) : (target addr).wellFormed = true := by
  revert addr; decide

theorem offset_target {addr : Offset} (haligned : misaligned addr = false) : (target addr).offset = addr := by
  revert addr; decide

theorem target_offset {t : Target} (hwf : t.wellFormed = true) : target t.offset = t := by
  cases t with
  | chain i => revert i; decide
  | block i => revert i; decide
  | reserved a => revert a; decide
  | ctrl | status | coreId | coreVersion => rfl

@[simp] theorem misaligned_offset (t : Target) : misaligned t.offset = false := by
  cases t with
  | chain i => revert i; decide
  | block i => revert i; decide
  | reserved a => revert a; decide
  | ctrl | status | coreId | coreVersion => rfl

@[simp] theorem misaligned_alignedOffset (a : BitVec 5) : misaligned (alignedOffset a) = false :=
  misaligned_offset (.reserved a)

/-- The decoder's test of ADDR[1:0] is the side condition of the misaligned rows. -/
theorem misaligned_eq (addr : Offset) : misaligned addr = (addr.toNat % 4 != 0) := by
  revert addr; decide

@[simp] theorem extractLsb'_alignedOffset (a : BitVec 5) : (alignedOffset a).extractLsb' 2 5 = a := by
  revert a; decide

theorem alignedOffset_extractLsb' {addr : Offset} (haligned : misaligned addr = false) :
    alignedOffset (addr.extractLsb' 2 5) = addr := by
  revert addr; decide

/-! ### The commands -/

/-- The decoder's test of WDATA by fields is the side condition of CMD_ILLEGAL. -/
theorem illegalCommand_eq (d : Word) : illegalCommand d = decide (5 ≤ d.toNat) := by
  have hhigh : d.extractLsb' 4 28 = 0#28 ↔ d.toNat < 16 := by
    rw [← BitVec.toNat_inj, BitVec.extractLsb'_toNat, Nat.shiftRight_eq_div_pow]
    have := d.isLt
    simp only [BitVec.toNat_ofNat]
    omega
  have hlow : (d.extractLsb' 0 4).toNat = d.toNat % 16 := by simp
  rw [Bool.eq_iff_iff, illegalCommand, hlow, Bool.or_eq_true, bne_iff_ne, Ne, hhigh, decide_eq_true_iff,
    decide_eq_true_iff]
  omega

theorem decodeCommand_of_illegal {d : Word} (h : 5 ≤ d.toNat) : decodeCommand d = .cmdIllegal d := by
  rw [decodeCommand, illegalCommand_eq, decide_eq_true h, if_pos rfl]

/-- A command's value is one of the five that R170 lists, or it is illegal. -/
theorem command_cases (d : Word) :
    d = 0#32 ∨ d = 1#32 ∨ d = 2#32 ∨ d = 3#32 ∨ d = 4#32 ∨ 5 ≤ d.toNat := by
  bv_omega

theorem encode_decodeCommand (d : Word) : encode (decodeCommand d) = assemble true 0b1111#4 ctrlOffset d := by
  rcases command_cases d with rfl | rfl | rfl | rfl | rfl | h
  case inr.inr.inr.inr.inr => rw [decodeCommand_of_illegal h]; rfl
  all_goals rfl

theorem wellFormed_decodeCommand (d : Word) : (decodeCommand d).wellFormed = true := by
  rcases command_cases d with rfl | rfl | rfl | rfl | rfl | h
  case inr.inr.inr.inr.inr => rw [decodeCommand_of_illegal h]; exact decide_eq_true h
  all_goals rfl

/-! ### Aligned reads and full-strobe writes, by target -/

theorem encode_decodeRead (t : Target) : encode (decodeRead t) = assemble false 0 t.offset 0 := by
  cases t with
  | chain i => fin_cases i <;> rfl
  | ctrl | status | coreId | coreVersion | block | reserved => rfl

theorem encode_decodeWrite (t : Target) (d : Word) :
    encode (decodeWrite t d) = assemble true 0b1111#4 t.offset d := by
  cases t with
  | ctrl => exact encode_decodeCommand d
  | chain i => fin_cases i <;> rfl
  | status | coreId | coreVersion | block | reserved => rfl

theorem wellFormed_decodeRead (t : Target) : (decodeRead t).wellFormed = t.wellFormed := by
  cases t with
  | chain i => fin_cases i <;> rfl
  | ctrl | status | coreId | coreVersion | block | reserved => rfl

theorem wellFormed_decodeWrite (t : Target) (d : Word) : (decodeWrite t d).wellFormed = t.wellFormed := by
  cases t with
  | ctrl => exact wellFormed_decodeCommand d
  | chain i => fin_cases i <;> rfl
  | status | coreId | coreVersion | block | reserved => rfl

/-! ### What a word decodes to -/

/-- The checks of R106 in their order, once for all words. -/
theorem decode_cases (w : TxnWord) :
    (misaligned (addrOf w) = true ∧ rwOf w = false ∧ decode w = .rdMisaligned (addrOf w)) ∨
    (misaligned (addrOf w) = true ∧ rwOf w = true ∧ decode w = .wrMisaligned (strbOf w) (addrOf w) (wdataOf w)) ∨
    (misaligned (addrOf w) = false ∧ rwOf w = false ∧ decode w = decodeRead (target (addrOf w))) ∨
    (misaligned (addrOf w) = false ∧ rwOf w = true ∧ strbOf w ≠ 0b1111#4 ∧
      decode w = .wrPartial (strbOf w) ((addrOf w).extractLsb' 2 5) (wdataOf w)) ∨
    (misaligned (addrOf w) = false ∧ rwOf w = true ∧ strbOf w = 0b1111#4 ∧
      decode w = decodeWrite (target (addrOf w)) (wdataOf w)) := by
  unfold decode
  cases misaligned (addrOf w) <;> cases rwOf w <;> by_cases hstrb : strbOf w = 0b1111#4 <;> simp [hstrb]

/-- Settles O3: the tests of the decoder are the side conditions of the rows. -/
theorem decodedIsWellFormed : Obligations.DecodedIsWellFormed := by
  intro w
  rcases decode_cases w with ⟨hm, -, h⟩ | ⟨hm, -, h⟩ | ⟨-, -, h⟩ | ⟨-, -, hstrb, h⟩ | ⟨-, -, -, h⟩ <;> rw [h]
  · exact (misaligned_eq _).symm.trans hm
  · exact (misaligned_eq _).symm.trans hm
  · exact (wellFormed_decodeRead _).trans (wellFormed_target _)
  · exact bne_iff_ne.mpr hstrb
  · exact (wellFormed_decodeWrite _ _).trans (wellFormed_target _)

theorem canonicalWord_of_read {w : TxnWord} (h : rwOf w = false) : canonicalWord w = assemble false 0 (addrOf w) 0 := by
  simp [canonicalWord, h]

theorem canonicalWord_of_write {w : TxnWord} (h : rwOf w = true) : canonicalWord w = w := by
  simp [canonicalWord, h]

theorem assemble_of_write {w : TxnWord} (h : rwOf w = true) : assemble true (strbOf w) (addrOf w) (wdataOf w) = w := by
  rw [← h, assemble_fields]

/-- Settles O2: a write keeps its four fields, and a read its RW and ADDR. -/
theorem encodeDecodeIsCanonical : Obligations.EncodeDecodeIsCanonical := by
  intro w
  rcases decode_cases w with ⟨-, hrw, h⟩ | ⟨-, hrw, h⟩ | ⟨hm, hrw, h⟩ | ⟨hm, hrw, -, h⟩ | ⟨hm, hrw, hstrb, h⟩ <;> rw [h]
  · exact (canonicalWord_of_read hrw).symm
  · exact (assemble_of_write hrw).trans (canonicalWord_of_write hrw).symm
  · rw [encode_decodeRead, offset_target hm, canonicalWord_of_read hrw]
  · rw [encode, alignedOffset_extractLsb' hm, assemble_of_write hrw, canonicalWord_of_write hrw]
  · rw [encode_decodeWrite, offset_target hm, ← hstrb, assemble_of_write hrw, canonicalWord_of_write hrw]

/-! ### What a term's word decodes to -/

theorem decode_encode_decodeRead {t : Target} (hwf : t.wellFormed = true) :
    decode (encode (decodeRead t)) = decodeRead t := by
  rw [encode_decodeRead]
  simp [decode, target_offset hwf]

theorem decode_encode_decodeWrite {t : Target} (hwf : t.wellFormed = true) (d : Word) :
    decode (encode (decodeWrite t d)) = decodeWrite t d := by
  rw [encode_decodeWrite]
  simp [decode, target_offset hwf]

/-- Settles O1: an aligned read or a full-strobe write is that of its target, and the other rows keep all their fields. -/
theorem decodeEncodeRoundTrip : Obligations.DecodeEncodeRoundTrip := by
  intro i hwf
  cases i with
  | rdMisaligned addr =>
    have hm : misaligned addr = true := (misaligned_eq addr).trans hwf
    simp [decode, encode, hm]
  | wrMisaligned strb addr d =>
    have hm : misaligned addr = true := (misaligned_eq addr).trans hwf
    simp [decode, encode, hm]
  | wrPartial strb a d =>
    have hstrb : strb ≠ 0b1111#4 := bne_iff_ne.mp hwf
    simp [decode, encode, hstrb]
  | cmdIllegal d =>
    have hd : decodeWrite .ctrl d = .cmdIllegal d := decodeCommand_of_illegal (of_decide_eq_true hwf)
    rw [← hd]
    exact decode_encode_decodeWrite rfl d
  | rdCtrl => exact decode_encode_decodeRead (t := .ctrl) rfl
  | rdStatus => exact decode_encode_decodeRead (t := .status) rfl
  | rdCoreId => exact decode_encode_decodeRead (t := .coreId) rfl
  | rdCoreVersion => exact decode_encode_decodeRead (t := .coreVersion) rfl
  | rdH0 => exact decode_encode_decodeRead (t := .chain 0) rfl
  | rdH1 => exact decode_encode_decodeRead (t := .chain 1) rfl
  | rdH2 => exact decode_encode_decodeRead (t := .chain 2) rfl
  | rdH3 => exact decode_encode_decodeRead (t := .chain 3) rfl
  | rdH4 => exact decode_encode_decodeRead (t := .chain 4) rfl
  | rdBlock k => exact decode_encode_decodeRead (t := .block k) rfl
  | rdRsvd a => exact decode_encode_decodeRead (t := .reserved a) hwf
  | cmdNop => exact decode_encode_decodeWrite (t := .ctrl) rfl 0#32
  | cmdInit => exact decode_encode_decodeWrite (t := .ctrl) rfl 1#32
  | cmdNext => exact decode_encode_decodeWrite (t := .ctrl) rfl 2#32
  | cmdFirst => exact decode_encode_decodeWrite (t := .ctrl) rfl 3#32
  | cmdClrerr => exact decode_encode_decodeWrite (t := .ctrl) rfl 4#32
  | wrStatus d => exact decode_encode_decodeWrite (t := .status) rfl d
  | wrCoreId d => exact decode_encode_decodeWrite (t := .coreId) rfl d
  | wrCoreVersion d => exact decode_encode_decodeWrite (t := .coreVersion) rfl d
  | wrH0 d => exact decode_encode_decodeWrite (t := .chain 0) rfl d
  | wrH1 d => exact decode_encode_decodeWrite (t := .chain 1) rfl d
  | wrH2 d => exact decode_encode_decodeWrite (t := .chain 2) rfl d
  | wrH3 d => exact decode_encode_decodeWrite (t := .chain 3) rfl d
  | wrH4 d => exact decode_encode_decodeWrite (t := .chain 4) rfl d
  | wrBlock k d => exact decode_encode_decodeWrite (t := .block k) rfl d
  | wrRsvd a d => exact decode_encode_decodeWrite (t := .reserved a) hwf d

end Sys2Proof
end

section
/-! The opcode map of spec/30_encoding.md as data: the row that wins at a word is the row of the term it decodes to. -/

namespace Sys2Proof

/-! ### The rows of the opcode map -/

/-- Settles O5: two rows of one priority have patterns that differ on a bit both masks keep. -/
theorem rowsOfOnePriorityDisjoint : Obligations.RowsOfOnePriorityDisjoint := by
  have hdiffer : opcodeTable.Pairwise fun r q =>
      r.priority = q.priority → r.pattern &&& q.mask ≠ q.pattern &&& r.mask := by decide
  intro w
  refine hdiffer.imp fun hrq hpriority ⟨hr, hq⟩ => hrq hpriority ?_
  rw [← eq_of_beq hr, ← eq_of_beq hq, BitVec.and_assoc, BitVec.and_assoc, BitVec.and_comm (OpcodeRow.mask _)]

theorem word_eq_iff_fields (w v : TxnWord) :
    w = v ↔ rwOf w = rwOf v ∧ strbOf w = strbOf v ∧ addrOf w = addrOf v ∧ wdataOf w = wdataOf v := by
  refine ⟨fun h => h ▸ ⟨rfl, rfl, rfl, rfl⟩, fun ⟨hrw, hstrb, haddr, hdata⟩ => ?_⟩
  rw [← assemble_fields w, ← assemble_fields v, hrw, hstrb, haddr, hdata]

/-- A word hits a row where each of its fields matches the row's field under the row's mask. -/
theorem OpcodeRow.hits_iff_fields (r : OpcodeRow) (w : TxnWord) :
    r.hits w = true ↔ (rwOf w && rwOf r.mask) = rwOf r.pattern ∧ strbOf w &&& strbOf r.mask = strbOf r.pattern ∧
      addrOf w &&& addrOf r.mask = addrOf r.pattern ∧ wdataOf w &&& wdataOf r.mask = wdataOf r.pattern := by
  rw [OpcodeRow.hits, beq_iff_eq, word_eq_iff_fields]
  simp only [rwOf, strbOf, addrOf, wdataOf, BitVec.getLsbD_and, BitVec.extractLsb'_and]

/-- The row R106 chooses for a word: it is hit, and no row of a smaller priority is. -/
structure RowWins (r : OpcodeRow) (w : TxnWord) : Prop where
  mem : r ∈ opcodeTable
  hits : r.hits w = true
  least : ∀ q ∈ opcodeTable, q.hits w = true → r.priority ≤ q.priority

theorem find?_of_hits {r : OpcodeRow} {w : TxnWord} (hmem : r ∈ opcodeTable) (hhits : r.hits w = true) :
    opcodeTable.find? (fun q => q.priority == r.priority && q.hits w) = some r := by
  obtain ⟨before, after, htable⟩ := List.append_of_mem hmem
  have hdisjoint := rowsOfOnePriorityDisjoint w
  rw [htable, List.pairwise_append] at hdisjoint
  obtain ⟨-, -, hbefore⟩ := hdisjoint
  refine List.find?_eq_some_iff_append.mpr ⟨by simp [hhits], before, after, htable, fun q hq => ?_⟩
  have hq' := hbefore q hq r List.mem_cons_self
  simpa [hhits, imp_iff_not_or] using hq'

theorem RowWins.winningRow_eq {r : OpcodeRow} {w : TxnWord} (h : RowWins r w) : winningRow w = some r := by
  have hpriority : ∀ q ∈ opcodeTable, q.priority ∈ [1, 2, 3, 4, 5] := by decide
  obtain ⟨smaller, larger, hlist⟩ := List.append_of_mem (hpriority r h.mem)
  have hascending : (smaller ++ r.priority :: larger).Pairwise (· < ·) := hlist ▸ (by decide)
  obtain ⟨-, -, hsmaller⟩ := List.pairwise_append.mp hascending
  refine List.findSome?_eq_some_iff.mpr ⟨smaller, r.priority, larger, hlist, find?_of_hits h.mem h.hits, ?_⟩
  intro p hp
  have hlt : p < r.priority := hsmaller p hp _ List.mem_cons_self
  refine List.find?_eq_none.mpr fun q hq hhit => ?_
  obtain ⟨hqp, hhits⟩ := Bool.and_eq_true_iff.mp hhit
  exact absurd (h.least q hq hhits) (by rw [eq_of_beq hqp]; omega)

/-! ### Which words leave the rows of small priority out -/

theorem rwOf_of_hits {q : OpcodeRow} (hq : q ∈ opcodeTable) {w : TxnWord} (h : q.hits w = true) :
    rwOf q.pattern = rwOf w := by
  have hmask : ∀ q ∈ opcodeTable, rwOf q.mask = true := by decide
  obtain ⟨hrw, -⟩ := (q.hits_iff_fields w).mp h
  rw [← hrw, hmask q hq, Bool.and_true]

/-- Only the misaligned rows match an offset that is not aligned. -/
theorem least_of_misaligned {w : TxnWord} {rw : Bool} (hrw : rwOf w = rw) (hm : misaligned (addrOf w) = true) :
    ∀ q ∈ opcodeTable, q.hits w = true → (if rw then 5 else 3) ≤ q.priority := by
  have htable : ∀ q ∈ opcodeTable, (if rwOf q.pattern then 5 else 3) ≤ q.priority ∨
      (addrOf q.mask).extractLsb' 0 2 = 0b11#2 ∧ (addrOf q.pattern).extractLsb' 0 2 = 0b00#2 := by decide
  intro q hq hhit
  rw [← hrw, ← rwOf_of_hits hq hhit]
  refine (htable q hq).resolve_right fun ⟨hmask, hpattern⟩ => ?_
  obtain ⟨-, -, haddr, -⟩ := (q.hits_iff_fields w).mp hhit
  have hlow := congrArg (·.extractLsb' 0 2) haddr
  simp only [BitVec.extractLsb'_and, hmask, hpattern] at hlow
  have hand : (addrOf w).extractLsb' 0 2 &&& 0b11#2 = (addrOf w).extractLsb' 0 2 := BitVec.and_allOnes
  rw [hand] at hlow
  simp [misaligned, hlow] at hm

/-- Only WR_PARTIAL and WR_MISALIGNED match a write without all four strobes. -/
theorem least_of_partial {w : TxnWord} (hrw : rwOf w = true) (hstrb : strbOf w ≠ 0b1111#4) :
    ∀ q ∈ opcodeTable, q.hits w = true → 4 ≤ q.priority := by
  have htable : ∀ q ∈ opcodeTable, 4 ≤ q.priority ∨ rwOf q.pattern = false ∨
      strbOf q.mask = BitVec.allOnes 4 ∧ strbOf q.pattern = 0b1111#4 := by decide
  intro q hq hhit
  rcases htable q hq with h | hread | ⟨hmask, hpattern⟩
  · exact h
  · rw [rwOf_of_hits hq hhit, hrw] at hread
    cases hread
  · obtain ⟨-, hmatch, -⟩ := (q.hits_iff_fields w).mp hhit
    rw [hmask, hpattern, BitVec.and_allOnes] at hmatch
    exact absurd hmatch hstrb

/-- No row of a register matches a reserved offset. -/
theorem least_of_reserved {w : TxnWord} {rw : Bool} {a : BitVec 5} (ha : reservedIndex a = true) (hrw : rwOf w = rw)
    (haddr : addrOf w = alignedOffset a) :
    ∀ q ∈ opcodeTable, q.hits w = true → (if rw then 3 else 2) ≤ q.priority := by
  have htable : ∀ a : BitVec 5, reservedIndex a = true → ∀ q ∈ opcodeTable,
      alignedOffset a &&& addrOf q.mask = addrOf q.pattern → (if rwOf q.pattern then 3 else 2) ≤ q.priority := by decide
  intro q hq hhit
  obtain ⟨-, -, hmatch, -⟩ := (q.hits_iff_fields w).mp hhit
  rw [← hrw, ← rwOf_of_hits hq hhit]
  exact htable a ha q hq (haddr ▸ hmatch)

/-- Of the rows at CTRL those of priority 1 match one legal value each. -/
theorem least_of_illegal {w : TxnWord} (hrw : rwOf w = true) (haddr : addrOf w = ctrlOffset) (hd : 5 ≤ (wdataOf w).toNat) :
    ∀ q ∈ opcodeTable, q.hits w = true → 2 ≤ q.priority := by
  have htable : ∀ q ∈ opcodeTable, rwOf q.pattern = true → ctrlOffset &&& addrOf q.mask = addrOf q.pattern →
      2 ≤ q.priority ∨ wdataOf q.mask = BitVec.allOnes 32 ∧ (wdataOf q.pattern).toNat < 5 := by decide
  intro q hq hhit
  obtain ⟨-, -, hmatch, hdata⟩ := (q.hits_iff_fields w).mp hhit
  refine (htable q hq ((rwOf_of_hits hq hhit).trans hrw) (haddr ▸ hmatch)).resolve_right fun ⟨hmask, hlegal⟩ => ?_
  rw [hmask, BitVec.and_allOnes] at hdata
  rw [← hdata] at hlegal
  omega

/-! ### The row of a term -/

/-- The row of the opcode map with a mnemonic. -/
def rowNamed (mnemonic : String) : Option OpcodeRow := opcodeTable.find? fun r => r.mnemonic == mnemonic

theorem mem_of_rowNamed {m : String} {r : OpcodeRow} (h : rowNamed m = some r) : r ∈ opcodeTable :=
  List.mem_of_find?_eq_some h

theorem mnemonic_of_rowNamed {m : String} {r : OpcodeRow} (h : rowNamed m = some r) : r.mnemonic = m := by
  obtain ⟨hfound, -⟩ := List.find?_eq_some_iff_append.mp h
  exact eq_of_beq hfound

/-- The word of `i` wins the row of `i`'s mnemonic, and the row reads `i` back from it. -/
def OwnRowWins (i : Instr) : Prop :=
  ∃ r, rowNamed i.mnemonic = some r ∧ RowWins r (encode i) ∧ r.build (encode i) = i

theorem ownRowWins_of_least {i : Instr} {r : OpcodeRow} (hname : rowNamed i.mnemonic = some r)
    (hhits : r.hits (encode i) = true) (hbuild : r.build (encode i) = i)
    (hleast : ∀ q ∈ opcodeTable, q.hits (encode i) = true → r.priority ≤ q.priority) : OwnRowWins i :=
  ⟨r, hname, ⟨mem_of_rowNamed hname, hhits, hleast⟩, hbuild⟩

theorem ownRowWins_of_priority_one {i : Instr} {r : OpcodeRow} (hname : rowNamed i.mnemonic = some r)
    (hhits : r.hits (encode i) = true) (hbuild : r.build (encode i) = i) (hfirst : r.priority = 1) : OwnRowWins i := by
  have hpositive : ∀ q ∈ opcodeTable, 1 ≤ q.priority := by decide
  exact ownRowWins_of_least hname hhits hbuild fun q hq _ => hfirst ▸ hpositive q hq

theorem hits_assemble {r : OpcodeRow} {rw : Bool} {strb : Strobe} {addr : Offset} {d : Word}
    (hrw : (rw && rwOf r.mask) = rwOf r.pattern) (hstrb : strb &&& strbOf r.mask = strbOf r.pattern)
    (haddr : addr &&& addrOf r.mask = addrOf r.pattern) (hdata : d &&& wdataOf r.mask = wdataOf r.pattern) :
    r.hits (assemble rw strb addr d) = true := by
  rw [OpcodeRow.hits_iff_fields, rwOf_assemble, strbOf_assemble, addrOf_assemble, wdataOf_assemble]
  exact ⟨hrw, hstrb, haddr, hdata⟩

theorem alignedOffset_and_low (a : BitVec 5) : alignedOffset a &&& 0b0000011#7 = 0#7 := by
  revert a; decide

/-- ADDR[6] and ADDR[1:0] of BLOCK's offsets. -/
theorem blockOffset_and_fixed (k : Fin 16) : blockOffset k &&& 0b1000011#7 = 0b1000000#7 := by
  revert k; decide

@[simp] theorem wordIndexOf_assemble (rw : Bool) (strb : Strobe) (a : BitVec 5) (d : Word) :
    wordIndexOf (assemble rw strb (alignedOffset a) d) = a := by
  simp [wordIndexOf]

@[simp] theorem blockIndexOf_assemble (rw : Bool) (strb : Strobe) (k : Fin 16) (d : Word) :
    blockIndexOf (assemble rw strb (blockOffset k) d) = k := by
  have hindex : ∀ k : Fin 16, ((blockOffset k).extractLsb' 2 4).toFin = k := by decide
  rw [blockIndexOf, addrOf_assemble, hindex]

/-- By the term's constructor: it names its row, and what the row's mask leaves out of the word are its operands. -/
theorem ownRowWins_of_wellFormed {i : Instr} (hwf : i.wellFormed = true) : OwnRowWins i := by
  cases i with
  | rdCtrl | rdStatus | rdCoreId | rdCoreVersion | rdH0 | rdH1 | rdH2 | rdH3 | rdH4
  | cmdNop | cmdInit | cmdNext | cmdFirst | cmdClrerr =>
    exact ownRowWins_of_priority_one rfl rfl rfl rfl
  | wrStatus | wrCoreId | wrCoreVersion | wrH0 | wrH1 | wrH2 | wrH3 | wrH4 =>
    exact ownRowWins_of_priority_one rfl (hits_assemble rfl rfl rfl BitVec.and_zero) (by simp [encode]) rfl
  | rdBlock k =>
    exact ownRowWins_of_priority_one rfl (hits_assemble rfl rfl (blockOffset_and_fixed k) rfl) (by simp [encode]) rfl
  | wrBlock k d =>
    exact ownRowWins_of_priority_one rfl (hits_assemble rfl rfl (blockOffset_and_fixed k) BitVec.and_zero)
      (by simp [encode]) rfl
  | rdRsvd a =>
    exact ownRowWins_of_least rfl (hits_assemble rfl rfl (alignedOffset_and_low a) rfl) (by simp [encode])
      (least_of_reserved hwf (rwOf_assemble ..) (addrOf_assemble ..))
  | wrRsvd a d =>
    exact ownRowWins_of_least rfl (hits_assemble rfl rfl (alignedOffset_and_low a) BitVec.and_zero) (by simp [encode])
      (least_of_reserved hwf (rwOf_assemble ..) (addrOf_assemble ..))
  | cmdIllegal d =>
    have hd : 5 ≤ (wdataOf (encode (.cmdIllegal d))).toNat := by simpa [encode] using of_decide_eq_true hwf
    exact ownRowWins_of_least rfl (hits_assemble rfl rfl rfl BitVec.and_zero) (by simp [encode])
      (least_of_illegal (rwOf_assemble ..) (addrOf_assemble ..) hd)
  | wrPartial strb a d =>
    have hstrb : strbOf (encode (.wrPartial strb a d)) ≠ 0b1111#4 := by simpa [encode] using bne_iff_ne.mp hwf
    exact ownRowWins_of_least rfl (hits_assemble rfl BitVec.and_zero (alignedOffset_and_low a) BitVec.and_zero)
      (by simp [encode]) (least_of_partial (rwOf_assemble ..) hstrb)
  | rdMisaligned addr =>
    have hm : misaligned (addrOf (encode (.rdMisaligned addr))) = true := by
      rw [encode, addrOf_assemble, misaligned_eq]; exact hwf
    exact ownRowWins_of_least rfl (hits_assemble rfl rfl BitVec.and_zero rfl) (by simp [encode])
      (least_of_misaligned (rwOf_assemble ..) hm)
  | wrMisaligned strb addr d =>
    have hm : misaligned (addrOf (encode (.wrMisaligned strb addr d))) = true := by
      rw [encode, addrOf_assemble, misaligned_eq]; exact hwf
    exact ownRowWins_of_least rfl (hits_assemble rfl BitVec.and_zero BitVec.and_zero BitVec.and_zero) (by simp [encode])
      (least_of_misaligned (rwOf_assemble ..) hm)

/-- Settles O6: the row that wins is the one found by the term's mnemonic. -/
theorem encodedWordWinsItsRow : Obligations.EncodedWordWinsItsRow := by
  intro i hwf
  obtain ⟨r, hname, hwins, -⟩ := ownRowWins_of_wellFormed hwf
  rw [hwins.winningRow_eq, Option.map_some, mnemonic_of_rowNamed hname]

/-! ### The bits the opcode map ignores -/

theorem hits_canonicalWord {r : OpcodeRow} (hr : r ∈ opcodeTable) (w : TxnWord) :
    r.hits (canonicalWord w) = true ↔ r.hits w = true := by
  have htable : ∀ r ∈ opcodeTable, rwOf r.mask = true ∧
      (rwOf r.pattern = false → strbOf r.mask = 0#4 ∧ wdataOf r.mask = 0#32) := by decide
  obtain ⟨hmask, hread⟩ := htable r hr
  cases hrw : rwOf w with
  | true => rw [canonicalWord_of_write hrw]
  | false =>
    rw [canonicalWord_of_read hrw, OpcodeRow.hits_iff_fields, OpcodeRow.hits_iff_fields, hrw, hmask]
    simp only [rwOf_assemble, strbOf_assemble, addrOf_assemble, wdataOf_assemble]
    refine and_congr_right fun hpattern => ?_
    obtain ⟨hstrb, hdata⟩ := hread hpattern.symm
    simp [hstrb, hdata]

theorem RowWins.of_canonicalWord {r : OpcodeRow} {w : TxnWord} (h : RowWins r (canonicalWord w)) : RowWins r w where
  mem := h.mem
  hits := (hits_canonicalWord h.mem w).mp h.hits
  least q hq hhit := h.least q hq ((hits_canonicalWord hq w).mpr hhit)

/-- A row of a read takes its operand from ADDR alone. -/
theorem build_readRows : ∀ r ∈ readRows, ∀ w v : TxnWord, addrOf w = addrOf v → r.build w = r.build v := by
  simp +contextual [readRows, blockIndexOf, wordIndexOf]

theorem build_canonicalWord {r : OpcodeRow} {w : TxnWord} (hr : r ∈ opcodeTable) (hhit : r.hits w = true) :
    r.build (canonicalWord w) = r.build w := by
  have hwrite : ∀ r ∈ commandRows ++ writeRows, rwOf r.pattern = true := by decide
  have hpattern := rwOf_of_hits hr hhit
  rw [opcodeTable, List.append_assoc, List.mem_append] at hr
  cases hrw : rwOf w with
  | true => rw [canonicalWord_of_write hrw]
  | false =>
    rcases hr with hread | hother
    · exact build_readRows r hread _ _ (by rw [canonicalWord_of_read hrw, addrOf_assemble])
    · rw [hwrite r hother, hrw] at hpattern
      cases hpattern

/-- Settles O4: the row that wins at a word is that of the term it decodes to, for the term's word is the word but for the
bits no row of a read looks at. -/
theorem tableDecoderAgrees : Obligations.TableDecoderAgrees := by
  intro w
  obtain ⟨r, -, hwins, hbuild⟩ := ownRowWins_of_wellFormed (decodedIsWellFormed w)
  rw [encodeDecodeIsCanonical w] at hwins hbuild
  have hw : RowWins r w := hwins.of_canonicalWord
  rw [decodeByTable, hw.winningRow_eq, Option.map_some, ← build_canonicalWord hw.mem hw.hits, hbuild]

/-! ### Words of the spec -/

/-- Settles O7: each word by evaluation; a number of more than 44 bits fails the test of `decodeNat`. -/
theorem specWordsDecode : Obligations.SpecWordsDecode := by
  refine ⟨by decide, by decide, by decide, by decide, by decide, by decide, by decide, by decide, fun n hn => ?_⟩
  exact if_neg (Nat.not_lt.mpr hn)

end Sys2Proof
end

section
/-! The responses of spec/30_encoding.md R113. -/

namespace Sys2Proof.Machine

/-- A write that is neither partial nor misaligned answers OKAY, whatever its effect (R142, R170). -/
theorem exec_alignedFullWrite {i : Instr} (hwrite : i.isWrite = true) (hpartial : ∀ strb a d, i ≠ .wrPartial strb a d)
    (haligned : ∀ strb addr d, i ≠ .wrMisaligned strb addr d) (s : State) :
    ∃ u : State, exec i s = .next u.answerWrite := by
  cases i
  case wrPartial strb a d => exact absurd rfl (hpartial strb a d)
  case wrMisaligned strb addr d => exact absurd rfl (haligned strb addr d)
  case cmdNop | cmdInit | cmdNext | cmdFirst | cmdClrerr | cmdIllegal | wrStatus | wrCoreId | wrCoreVersion | wrH0 | wrH1
    | wrH2 | wrH3 | wrH4 | wrBlock | wrRsvd => exact ⟨_, rfl⟩
  all_goals cases hwrite

/-- Settles O29: the three refused rows answer SLVERR, every other read or write OKAY. -/
theorem responseOfEveryTransaction : Obligations.ResponseOfEveryTransaction := by
  intro i s
  by_cases hpartial : ∃ strb a d, i = .wrPartial strb a d
  · obtain ⟨strb, a, d, rfl⟩ := hpartial
    exact ⟨_, .write .slverr, rfl, rfl, fun _ => ⟨_, rfl⟩, nofun, fun _ => .inl ⟨strb, a, d, rfl⟩, nofun⟩
  by_cases hmisaligned : ∃ strb addr d, i = .wrMisaligned strb addr d
  · obtain ⟨strb, addr, d, rfl⟩ := hmisaligned
    exact ⟨_, .write .slverr, rfl, rfl, fun _ => ⟨_, rfl⟩, nofun, fun _ => .inr ⟨strb, addr, d, rfl⟩, nofun⟩
  by_cases hread : ∃ addr, i = .rdMisaligned addr
  · obtain ⟨addr, rfl⟩ := hread
    exact ⟨_, .read .slverr 0, rfl, rfl, nofun, fun _ => ⟨_, _, rfl⟩, nofun,
      fun d hd => ⟨by cases hd; rfl, addr, rfl⟩⟩
  cases hrw : i.isWrite with
  | true =>
    obtain ⟨u, hexec⟩ := exec_alignedFullWrite hrw (by simpa using hpartial) (by simpa using hmisaligned) s
    exact ⟨_, .write .okay, hexec, rfl, fun _ => ⟨_, rfl⟩, nofun, nofun, nofun⟩
  | false =>
    obtain ⟨d, hexec⟩ := exec_alignedRead hrw (not_exists.mp hread) s
    exact ⟨_, .read .okay d, hexec, rfl, nofun, fun _ => ⟨_, _, rfl⟩, nofun, nofun⟩

end Sys2Proof.Machine
end

section
/-! The bus accesses of spec/40_bus_access.md: each read and write by its rule, R147's second account of a transaction, and
how the host's next word reaches `exec`. -/

namespace Sys2Proof.Machine

/-! ### The registers' offsets as numbers -/

theorem toNat_hOffset (k : Fin 5) : (hOffset k).toNat = 0x20 + 4 * k.val := by
  revert k; decide

theorem toNat_blockOffset (k : Fin 16) : (blockOffset k).toNat = 0x40 + 4 * k.val := by
  revert k; decide

theorem alignedOffset_eq_ofNat (a : BitVec 5) : alignedOffset a = BitVec.ofNat 7 (4 * a.toNat) := by
  revert a; decide

/-- A reserved offset lies outside every register's range, so R147's comparisons miss it. -/
theorem toNat_reserved_offset {a : BitVec 5} (hreserved : reservedIndex a = true) :
    0x0C < (alignedOffset a).toNat ∧ (alignedOffset a).toNat < 0x40 ∧
      ¬(0x20 ≤ (alignedOffset a).toNat ∧ (alignedOffset a).toNat ≤ 0x30) := by
  revert a; decide

/-! ### Reads and ignored writes -/

/-- Settles O8: no field of the state enters the three answers. -/
theorem constantReads : Obligations.ConstantReads :=
  fun _ => ⟨rfl, rfl, rfl⟩

/-- Settles O10, by the read of `H[k]` at each index. -/
theorem chainReads : Obligations.ChainReads :=
  fun s => ⟨exec_readChain 0 s, exec_readChain 1 s, exec_readChain 2 s, exec_readChain 3 s, exec_readChain 4 s⟩

/-- Settles O11: the answer is `readBlock`. -/
theorem blockRead : Obligations.BlockRead :=
  fun _ _ => rfl

/-- Settles O12: neither row looks at the index or the data. -/
theorem reservedAccesses : Obligations.ReservedAccesses :=
  fun _ _ _ => ⟨rfl, rfl⟩

/-- Settles O14: each of the three is `ignoreWrite`. -/
theorem readOnlyWritesIgnored : Obligations.ReadOnlyWritesIgnored :=
  fun _ _ => ⟨rfl, rfl, rfl⟩

/-! ### Writes of H and BLOCK -/

/-- Raising an error adds its event to FAULT, and the answer leaves FAULT alone (R275). -/
theorem faultsGain_raise_respond (e : ErrorEvent) (r : Response) (s : State) :
    faultsGain e s ((s.raise e).respond r) :=
  fun _ => mem_recordEvent

/-- A write behind the gate is rejected on a busy block: E1, and OKAY (R276). -/
theorem exec_gated_of_busy {i : Instr} {a : Offset} {act : State → State} {s : State}
    (hexec : exec i s = .next (s.gated a act).answerWrite) (hbusy : s.pend ≠ none) :
    ∃ t, exec i s = .next t ∧ t = { s with errBusy := true, faults := t.faults, resp := some (.write .okay) } ∧
      faultsGain (.busyReject a) s t := by
  rw [State.gated_of_busy hbusy] at hexec
  exact ⟨_, hexec, rfl, faultsGain_raise_respond _ _ s⟩

theorem exec_writeChain_of_ready {s : State} (hready : s.pend = none) (k : Fin 5) (d : Word) :
    ∃ t, exec (writeChain k d) s = .next t ∧ t = { s with h := t.h, valid := false, resp := some (.write .okay) } ∧
      ∀ j : Fin 5, t.h[j] = if j = k then d else s.h[j] := by
  refine ⟨_, exec_writeChain k d s, ?_⟩
  rw [State.gated_of_ready hready]
  refine ⟨rfl, fun j => ?_⟩
  simp [State.answerWrite, Vector.getElem_set, Fin.ext_iff, eq_comm]

theorem exec_wrBlock_of_ready {s : State} (hready : s.pend = none) (k : Fin 16) (d : Word) :
    ∃ t, exec (.wrBlock k d) s = .next t ∧ t = { s with block := t.block, resp := some (.write .okay) } ∧
      ∀ j : Fin 16, t.block[j] = if j = k then d else s.block[j] := by
  refine ⟨_, rfl, ?_⟩
  rw [State.gated_of_ready hready]
  refine ⟨rfl, fun j => ?_⟩
  simp [State.answerWrite, Vector.getElem_set, Fin.ext_iff, eq_comm]

/-- Settles O15: the five rows are one write of `H[k]` behind the gate, performed or rejected. -/
theorem chainWrite : Obligations.ChainWrite := by
  intro d s k off i hrow
  have hindex : off = hOffset k ∧ i = writeChain k d := by
    simp only [List.mem_cons, List.not_mem_nil, or_false, Prod.mk.injEq] at hrow
    rcases hrow with ⟨rfl, rfl, rfl⟩ | ⟨rfl, rfl, rfl⟩ | ⟨rfl, rfl, rfl⟩ | ⟨rfl, rfl, rfl⟩ | ⟨rfl, rfl, rfl⟩ <;>
      exact ⟨rfl, rfl⟩
  obtain ⟨rfl, rfl⟩ := hindex
  exact ⟨fun hready => exec_writeChain_of_ready hready k d, exec_gated_of_busy (exec_writeChain k d s)⟩

/-- Settles O16: a write of `BLOCK[k]` behind the gate, performed or rejected. -/
theorem blockWrite : Obligations.BlockWrite := by
  intro d s k
  rw [← toNat_blockOffset, BitVec.ofNat_toNat, BitVec.setWidth_eq]
  exact ⟨fun hready => exec_wrBlock_of_ready hready k d, exec_gated_of_busy rfl⟩

/-! ### Refused transactions -/

/-- Settles O17: both rows raise E3, which sets no STATUS bit. -/
theorem misalignedRefused : Obligations.MisalignedRefused := by
  intro addr strb d s
  exact ⟨⟨_, rfl, rfl, faultsGain_raise_respond _ _ s⟩, ⟨_, rfl, rfl, faultsGain_raise_respond _ _ s⟩⟩

/-- Settles O18: the row raises E4, which sets no STATUS bit. -/
theorem partialWriteRefused : Obligations.PartialWriteRefused := by
  intro strb a d s
  rw [← alignedOffset_eq_ofNat]
  exact ⟨_, rfl, rfl, faultsGain_raise_respond _ _ s⟩

/-! ### R147 by the target of an offset -/

/-- R147's bounded write of a word is the model's write, for an index in range. -/
theorem setIfInBounds_eq_set {n : Nat} (v : Vector Word n) (k : Fin n) (d : Word) : v.setIfInBounds k d = v.set k d := by
  ext j hj
  rw [Vector.getElem_setIfInBounds, Vector.getElem_set]

theorem readData_hOffset (k : Fin 5) (s : State) : readData (hOffset k).toNat s = s.readH k := by
  rw [toNat_hOffset, readData, if_neg (by omega), if_neg (by omega), if_neg (by omega), if_pos (by omega)]
  simp [State.readH]

theorem readData_blockOffset (k : Fin 16) (s : State) : readData (blockOffset k).toNat s = s.readBlock k := by
  rw [toNat_blockOffset, readData, if_neg (by omega), if_neg (by omega), if_neg (by omega), if_neg (by omega),
    if_pos (by omega)]
  simp [State.readBlock]

theorem readData_reserved {a : BitVec 5} (hreserved : reservedIndex a = true) (s : State) :
    readData (alignedOffset a).toNat s = 0 := by
  obtain ⟨hlow, hhigh, hchain⟩ := toNat_reserved_offset hreserved
  rw [readData, if_neg (by omega), if_neg (by omega), if_neg (by omega), if_neg hchain, if_neg (by omega)]

theorem writeEffect_hOffset (k : Fin 5) (d : Word) (s : State) :
    writeEffect (hOffset k).toNat d s = s.gated (hOffset k) (State.writeH k d) := by
  rw [writeEffect, BitVec.ofNat_toNat, BitVec.setWidth_eq, toNat_hOffset, if_neg (by omega), if_pos (by omega)]
  congr 1
  funext u
  simp [State.writeH, setIfInBounds_eq_set]

theorem writeEffect_blockOffset (k : Fin 16) (d : Word) (s : State) :
    writeEffect (blockOffset k).toNat d s = s.gated (blockOffset k) (State.writeBlock k d) := by
  rw [writeEffect, BitVec.ofNat_toNat, BitVec.setWidth_eq, toNat_blockOffset, if_neg (by omega), if_neg (by omega),
    if_pos (by omega)]
  congr 1
  funext u
  simp [State.writeBlock, setIfInBounds_eq_set]

theorem writeEffect_reserved {a : BitVec 5} (hreserved : reservedIndex a = true) (d : Word) (s : State) :
    writeEffect (alignedOffset a).toNat d s = s := by
  obtain ⟨hlow, hhigh, hchain⟩ := toNat_reserved_offset hreserved
  rw [writeEffect, if_neg (by omega), if_neg hchain, if_neg (by omega)]

/-- R170's `command(d)` in its two accounts: by the fields of WDATA, and by its number. -/
theorem exec_decodeCommand (d : Word) (s : State) :
    exec (decodeCommand d) s = .next (commandEffect d s).answerWrite := by
  rcases command_cases d with rfl | rfl | rfl | rfl | rfl | h
  case inr.inr.inr.inr.inr => rw [decodeCommand_of_illegal h, commandEffect, if_pos h]; rfl
  all_goals rfl

/-- An aligned read answers R147's data, whichever register it selects. -/
theorem exec_decodeRead {t : Target} (hwf : t.wellFormed = true) (s : State) :
    exec (decodeRead t) s = .next (s.answerRead (readData t.offset.toNat s)) := by
  cases t with
  | chain k => rw [Target.offset, readData_hOffset]; exact exec_readChain k s
  | block k => rw [Target.offset, readData_blockOffset]; rfl
  | reserved a => rw [Target.offset, readData_reserved hwf]; rfl
  | ctrl | status | coreId | coreVersion => rfl

/-- A full-strobe aligned write has R147's effect, whichever register it selects. -/
theorem exec_decodeWrite {t : Target} (hwf : t.wellFormed = true) (d : Word) (s : State) :
    exec (decodeWrite t d) s = .next (writeEffect t.offset.toNat d s).answerWrite := by
  cases t with
  | ctrl => exact exec_decodeCommand d s
  | chain k => rw [Target.offset, writeEffect_hOffset]; exact exec_writeChain k d s
  | block k => rw [Target.offset, writeEffect_blockOffset]; rfl
  | reserved a => rw [Target.offset, writeEffect_reserved hwf]; rfl
  | status | coreId | coreVersion => rfl

/-- Settles O31, by the checks of R106: the two accounts make them alike, and past them agree target by target. -/
theorem transactionStepFunction : Obligations.TransactionStepFunction := by
  intro w s
  have hmod : (addrOf w).toNat % 4 ≠ 0 ↔ misaligned (addrOf w) = true := by rw [misaligned_eq, bne_iff_ne]
  simp only [stepTxn, hmod]
  rcases decode_cases w with ⟨hm, hrw, h⟩ | ⟨hm, hrw, h⟩ | ⟨hm, hrw, h⟩ | ⟨hm, hrw, hstrb, h⟩ | ⟨hm, hrw, hstrb, h⟩ <;>
    simp only [h, hm, hrw, if_true, if_false, reduceCtorEq]
  · rfl
  · rfl
  · rw [exec_decodeRead (wellFormed_target _), offset_target hm]; rfl
  · rw [if_pos hstrb, exec, execWrPartial, alignedOffset_extractLsb' hm]; rfl
  · rw [exec_decodeWrite (wellFormed_target _), offset_target hm, if_neg (not_not.mpr hstrb)]; rfl

/-! ### The host's next word -/

theorem State.popInput_offer (w : TxnWord) (s : State) : (s.offer w).popInput = s.holdOff := by
  have hinputs : s.holdOff.inputs = s.inputs := by unfold State.holdOff; split <;> rfl
  rw [State.offer, State.popInput, List.tail_cons, ← hinputs]

/-- An offered word is the next event, because `holdOff` keeps the completion from falling before it (log 1). -/
theorem step_offer (w : TxnWord) (s : State) : step (s.offer w) = exec (decode w) s.tick := by
  have hevent : (s.offer w).nextEvent = .transaction w := nextEvent_of_txn rfl s.holdOff_not_due
  rw [step_of_transaction hevent, State.popInput_offer, State.holdOff_tick]

theorem decode_of_decodeTableWord {nbits w : Nat} {i : Instr} (h : decodeTableWord nbits w = some i) :
    decode (BitVec.ofNat 44 (w % 2 ^ nbits)) = i := by
  unfold decodeTableWord decodeNat at h
  split_ifs at h
  exact Option.some.inj h

/-- Settles O33: `withFetchWord` offers the word the table decodes. -/
theorem fetchWordRunsNext : Obligations.FetchWordRunsNext := by
  intro s nbits w i hdecode
  rw [State.withFetchWord, step_offer, decode_of_decodeTableWord hdecode]
  rfl

/-- Settles O43, by the agents of a step: a transaction is always answered, and only the foreign one is not run. -/
theorem onlySecondMasterStops : Obligations.OnlySecondMasterStops := by
  intro s
  rcases step_cases s with ⟨he, hs⟩ | ⟨he, hs⟩ | ⟨w, he, hs⟩ | ⟨he, hs⟩ | ⟨he, hs⟩ <;> rw [he, hs]
  · exact ⟨fun _ => ⟨_, rfl⟩, nofun⟩
  · exact ⟨fun _ => ⟨_, rfl⟩, nofun⟩
  · exact ⟨fun _ => exec_next _ _, nofun⟩
  · exact ⟨fun h => absurd rfl h, fun _ => rfl⟩
  · exact ⟨fun _ => ⟨_, rfl⟩, nofun⟩

end Sys2Proof.Machine
end

section
/-! The commands of spec/41_commands.md: what each does on a block that is not busy, and NEXT and FIRST as one acceptance
from two chaining states. -/

namespace Sys2Proof.Machine

/-! ### Behind the busy gate -/

/-- The counterpart of `exec_gated_of_busy`: on a block that is not busy the action is performed (R173). -/
theorem exec_gated_of_ready {i : Instr} {a : Offset} {act : State → State} {s : State}
    (hexec : exec i s = .next (s.gated a act).answerWrite) (hready : s.pend = none) :
    exec i s = .next (act s).answerWrite := by
  rw [hexec, State.gated_of_ready hready]

/-- The completion compresses what the acceptance captured, the block of that moment, and writes H for the first time. -/
theorem State.complete_accept_answered (hin : Chain) (s : State) :
    (s.accept hin).answerWrite.complete =
      { (s.accept hin).answerWrite with h := compress hin s.block, pend := none, valid := true } :=
  State.complete_of_some (s := (s.accept hin).answerWrite) (s.accept_pend hin)

/-- NEXT and FIRST are the acceptance `accept hin`, from H and from IV: PEND takes the snapshot, READY and VALID fall, H
stays, and the completion gives Compress of the snapshot (R174, R175, R218). -/
theorem exec_accept_of_ready {i : Instr} {a : Offset} {hin : Chain} {s : State}
    (hexec : exec i s = .next (s.gated a (State.accept hin)).answerWrite) (hready : s.pend = none) :
    ∃ t, exec i s = .next t ∧
      t = { s with
        pend := some { hin := hin, m := s.block }
        valid := false
        resp := some (.write .okay)
        wait := t.wait
        draws := t.draws } ∧
      t.ready = false ∧
      t.complete = { t with h := compress hin s.block, pend := none, valid := true } ∧ t.complete.ready = true := by
  have hcomplete := s.complete_accept_answered hin
  refine ⟨_, exec_gated_of_ready hexec hready, rfl, rfl, hcomplete, ?_⟩
  rw [hcomplete, State.ready_iff]

/-! ### INIT, NEXT and FIRST -/

/-- Settles O22: behind the gate stands `loadIv`. -/
theorem initCommand : Obligations.InitCommand :=
  fun _ => ⟨exec_gated_of_ready (act := State.loadIv) rfl, exec_gated_of_busy rfl⟩

/-- Settles O23: behind the gate stands the acceptance from H. -/
theorem nextCommand : Obligations.NextCommand :=
  fun _ => ⟨exec_accept_of_ready rfl, exec_gated_of_busy rfl⟩

/-- Settles O24: behind the gate stands the acceptance from IV. -/
theorem firstCommand : Obligations.FirstCommand :=
  fun _ => ⟨exec_accept_of_ready rfl, exec_gated_of_busy rfl⟩

/-! ### `first` against `init; next` -/

/-- The completion overwrites H, so what H holds while a compression is pending does not matter to it (R177, R218). -/
theorem State.complete_with_h {s : State} (hbusy : s.pend ≠ none) (h' : Chain) :
    ({ s with h := h' } : State).complete = s.complete := by
  obtain ⟨p, hp⟩ := Option.ne_none_iff_exists'.mp hbusy
  have hp' : ({ s with h := h' } : State).pend = some p := hp
  rw [State.complete_of_some hp, State.complete_of_some hp']

/-- Settles O27: after `init` H is IV, so `next` takes the snapshot `first` takes, and the completion overwrites the H in
which the two differ. -/
theorem firstIsInitThenNext : Obligations.FirstIsInitThenNext := by
  intro s hready
  have hinit : exec .cmdInit s = .next s.loadIv.answerWrite := exec_gated_of_ready rfl hready
  have hnext : exec .cmdNext s.loadIv.answerWrite = .next (s.loadIv.answerWrite.accept iv).answerWrite :=
    exec_gated_of_ready rfl hready
  have hfirst : exec .cmdFirst s = .next (s.accept iv).answerWrite := exec_gated_of_ready rfl hready
  have hpending : (s.loadIv.answerWrite.accept iv).answerWrite.pend ≠ none := Option.some_ne_none _
  exact ⟨_, _, hinit, hnext, rfl, hfirst, State.complete_with_h hpending s.h⟩

/-! ### The commands that are not gated -/

/-- Settles O21: the command is its answer. -/
theorem nopCommand : Obligations.NopCommand :=
  fun _ => rfl

/-- Settles O25: `clearErrors` writes the two bits and is not gated. -/
theorem clrerrCommand : Obligations.ClrerrCommand :=
  fun _ => rfl

/-- Settles O26: the command raises E2, whose STATUS bit is ERR_CMD, and is not gated. Protected, because `illegalCommand` is
the decoder's test. -/
protected theorem illegalCommand : Obligations.IllegalCommand :=
  fun d s => ⟨_, rfl, rfl, faultsGain_raise_respond (.illegalCmd d) _ s⟩

end Sys2Proof.Machine
end

section
/-! The compression of spec/42_compression.md: its round functions, the message schedule, the eighty steps as one sequence
of working words that the schedule list and the circular buffer both run through, and the completion of a pending
compression. -/

namespace Sys2Proof.Machine

/-! ### The round functions -/

/-- Settles O44: each function works bit by bit, and on one bit it is its truth table. -/
theorem roundFunctionsBitwise : Obligations.RoundFunctionsBitwise := by
  intro x y z b hb
  have hch : ∀ p q r : Bool, ((p && q) ^^ (!p && r)) = if p then q else r := by decide
  have hmaj : ∀ p q r : Bool,
      (((p && q) ^^ (p && r)) ^^ (q && r)) = decide (2 ≤ p.toNat + q.toNat + r.toNat) := by decide
  refine ⟨?_, ?_, ?_⟩
  · rw [← hch]
    simp [ch, hb]
  · simp [parity]
  · rw [← hmaj]
    simp [maj]

/-- Settles O45: in each group the tests of the groups before it fail. -/
theorem roundGroups : Obligations.RoundGroups := by
  intro t
  refine ⟨fun h => ?_, fun hlo hhi => ?_, fun hlo hhi => ?_, fun hlo _ => ?_⟩
  · simp [roundFunction, roundConstant, h]
  · simp [roundFunction, roundConstant, hhi, show ¬t ≤ 19 by omega]
  · simp [roundFunction, roundConstant, hhi, show ¬t ≤ 19 by omega, show ¬t ≤ 39 by omega]
  · simp [roundFunction, roundConstant, show ¬t ≤ 19 by omega, show ¬t ≤ 39 by omega, show ¬t ≤ 59 by omega]

/-! ### The message schedule -/

@[simp] theorem length_scheduleNewestFirst (m : Block) (n : Nat) : (scheduleNewestFirst m n).length = 16 + n := by
  induction n with
  | zero => simp [scheduleNewestFirst]
  | succ n ih => simp [scheduleNewestFirst, ih, Nat.add_assoc]

@[simp] theorem length_schedule (m : Block) : (schedule m).length = 80 := by
  simp [schedule]

/-- `k` later words push a word `k` places back. -/
theorem getD_scheduleNewestFirst_add (m : Block) (n k i : Nat) :
    (scheduleNewestFirst m (n + k)).getD (i + k) 0 = (scheduleNewestFirst m n).getD i 0 := by
  induction k with
  | zero => rfl
  | succ k ih => exact ih

/-- Among the first 16 + `n` words, W[t] stands `15 + n - t` places behind the newest. -/
theorem getD_scheduleNewestFirst {n i t : Nat} (hn : n ≤ 64) (hplace : t + i = 15 + n) (m : Block) :
    (scheduleNewestFirst m n).getD i 0 = scheduleWord m t := by
  have hback : i + (64 - n) = 80 - 1 - t := by omega
  calc (scheduleNewestFirst m n).getD i 0
      = (scheduleNewestFirst m 64).getD (i + (64 - n)) 0 := by
        rw [← getD_scheduleNewestFirst_add m n (64 - n) i, Nat.add_sub_cancel' hn]
    _ = scheduleWord m t := by
        rw [scheduleWord, schedule, List.getD_reverse t (by rw [length_scheduleNewestFirst]; omega),
          length_scheduleNewestFirst, hback]

/-- Settles O47: the first sixteen words are the block reversed, and W[t] is the newest of the first `t + 1`, computed from the
words behind it. -/
theorem messageSchedule : Obligations.MessageSchedule := by
  intro m
  constructor
  · intro t
    have ht := t.isLt
    have hback : m.toList.length - 1 - (15 - t.val) = t.val := by rw [Vector.length_toList]; omega
    rw [← getD_scheduleNewestFirst (n := 0) (i := 15 - t.val) (by omega) (by omega), scheduleNewestFirst,
      List.getD_reverse _ (by rw [Vector.length_toList]; omega), hback]
    simp
  · intro t hlo hhi
    obtain ⟨n, rfl⟩ := Nat.exists_eq_add_of_le hlo
    have hword {i j : Nat} (hplace : j + i = 15 + n) : (scheduleNewestFirst m n).getD i 0 = scheduleWord m j :=
      getD_scheduleNewestFirst (by omega) hplace m
    rw [← getD_scheduleNewestFirst (n := n + 1) (i := 0) (by omega) (by omega), scheduleNewestFirst, List.getD_cons_zero,
      nextScheduleWord, hword (by omega : 16 + n - 3 + 2 = _), hword (by omega : 16 + n - 8 + 7 = _),
      hword (by omega : 16 + n - 14 + 13 = _), hword (by omega : 16 + n - 16 + 15 = _)]

/-! ### The eighty steps -/

/-- The working words before step `t` (R209, R210). -/
def workingBefore (hin : Chain) (m : Block) : Nat → Working
  | 0 => initWorking hin
  | t + 1 => roundStep t (scheduleWord m t) (workingBefore hin m t)

/-- A list of schedule words, the first of them W[t], takes the working words before step `t` through its steps. -/
theorem runRounds_workingBefore (hin : Chain) (m : Block) {ws : List Word} {t : Nat}
    (hws : ∀ (i : Nat) (hi : i < ws.length), ws[i] = scheduleWord m (t + i)) :
    runRounds t ws (workingBefore hin m t) = workingBefore hin m (t + ws.length) := by
  induction ws generalizing t with
  | nil => rfl
  | cons w ws ih =>
    obtain rfl : w = scheduleWord m t := hws 0 (Nat.zero_lt_succ _)
    have hrest (i : Nat) (hi : i < ws.length) : ws[i] = scheduleWord m (t + 1 + i) := by
      rw [Nat.add_right_comm]
      exact hws (i + 1) (Nat.succ_lt_succ hi)
    rw [runRounds, ← workingBefore, ih hrest, List.length_cons, Nat.add_right_comm, Nat.add_assoc]

theorem compress_eq_feedForward (hin : Chain) (m : Block) :
    compress hin m = feedForward hin (workingBefore hin m 80) := by
  have hws (i : Nat) (hi : i < (schedule m).length) : (schedule m)[i] = scheduleWord m (0 + i) := by
    rw [Nat.zero_add, scheduleWord, List.getD_eq_getElem _ _ hi]
  rw [compress, ← workingBefore, runRounds_workingBefore hin m hws, length_schedule]

/-- Settles O48: the sequence is `workingBefore`. -/
theorem compressIsEightySteps : Obligations.CompressIsEightySteps :=
  fun hin m => ⟨workingBefore hin m, rfl, fun _ _ => rfl, compress_eq_feedForward hin m⟩

/-! ### The circular buffer -/

/-- Before step `t` the buffer holds the sixteen newest words, W[j] at place `j % 16`: the block's own words until step 16,
then W[t-16] to W[t-1] (R208). -/
def HoldsNewestWords (m : Block) (t : Nat) (buf : Block) : Prop :=
  ∀ j : Nat, j < max t 16 → max t 16 ≤ j + 16 → buf[j % 16]'(Nat.mod_lt _ (by decide)) = scheduleWord m j

theorem holdsNewestWords_zero (m : Block) : HoldsNewestWords m 0 m := by
  intro j hj _
  have hj16 : j < 16 := hj
  simpa [Nat.mod_eq_of_lt hj16] using ((messageSchedule m).1 ⟨j, hj16⟩).symm

/-- Until step 16 the buffer is only read. -/
theorem circularWord_of_early {t : Nat} (hearly : t < 16) (buf : Block) :
    circularWord t buf = (buf[t % 16]'(Nat.mod_lt _ (by decide)), buf) := by
  rw [circularWord, if_pos hearly]

/-- From step 16 on the step's word takes the place of the word sixteen steps before it. -/
theorem circularWord_snd_of_late {t : Nat} (hlate : 16 ≤ t) (buf : Block) :
    (circularWord t buf).2 = buf.set (t % 16) (circularWord t buf).1 (Nat.mod_lt _ (by decide)) := by
  rw [circularWord, if_neg (by omega)]

/-- The word of a step is W[t]: the block's own, or the one R207 computes from four words that are still in the buffer. -/
theorem circularWord_fst {m buf : Block} {t : Nat} (hbuf : HoldsNewestWords m t buf) (ht : t < 80) :
    (circularWord t buf).1 = scheduleWord m t := by
  rcases Nat.lt_or_ge t 16 with hearly | hlate
  · rw [circularWord_of_early hearly]
    exact hbuf t (by omega) (by omega)
  · rw [circularWord, if_neg (by omega), (messageSchedule m).2 t hlate (by omega),
      ← hbuf (t - 3) (by omega) (by omega), ← hbuf (t - 8) (by omega) (by omega),
      ← hbuf (t - 14) (by omega) (by omega), ← hbuf (t - 16) (by omega) (by omega)]

/-- The word a step overwrites, W[t-16], is one that no later step reads. -/
theorem HoldsNewestWords.circularWord_snd {m buf : Block} {t : Nat} (hbuf : HoldsNewestWords m t buf) (ht : t < 80) :
    HoldsNewestWords m (t + 1) (circularWord t buf).2 := by
  intro j hj hnew
  rcases Nat.lt_or_ge t 16 with hearly | hlate
  · simpa only [circularWord_of_early hearly] using hbuf j (by omega) (by omega)
  · simp only [circularWord_snd_of_late hlate, circularWord_fst hbuf ht, Vector.getElem_set]
    split
    · obtain rfl : j = t := by omega
      rfl
    · exact hbuf j (by omega) (by omega)

theorem runCircular_succ (n t : Nat) (buf : Block) (v : Working) :
    runCircular (n + 1) t buf v = runCircular n (t + 1) (circularWord t buf).2 (roundStep t (circularWord t buf).1 v) :=
  rfl

/-- The buffer takes the working words through the same steps. -/
theorem runCircular_workingBefore (hin : Chain) {m buf : Block} {n t : Nat} (hbuf : HoldsNewestWords m t buf)
    (ht : t + n ≤ 80) : runCircular n t buf (workingBefore hin m t) = workingBefore hin m (t + n) := by
  induction n generalizing t buf with
  | zero => rfl
  | succ n ih =>
    have hnow : t < 80 := by omega
    rw [runCircular_succ, circularWord_fst hbuf hnow, ← workingBefore, ih (hbuf.circularWord_snd hnow) (by omega),
      Nat.add_right_comm, Nat.add_assoc]

/-- Settles O49: both forms end with the working words after eighty steps. -/
theorem circularBufferAgrees : Obligations.CircularBufferAgrees := by
  intro hin m
  rw [compressCircular, ← workingBefore, runCircular_workingBefore hin (holdsNewestWords_zero m) (by omega),
    compress_eq_feedForward]

/-! ### Known answers -/

/-- Settles O50: the model computes each vector. -/
theorem compressVectors : Obligations.CompressVectors := by
  refine ⟨?_, ?_, ?_, ?_, ?_, ?_⟩ <;> decide +kernel

/-! ### The completion is eventual -/

theorem State.hostOnly.not_reset {s : State} (h : s.hostOnly) (rest : List Input) : s.inputs ≠ .reset :: rest := by
  intro hinputs
  obtain ⟨w, hw⟩ := h .reset (by simp [hinputs])
  cases hw

theorem State.hostOnly.nextEvent_ne_foreign {s : State} (h : s.hostOnly) : s.nextEvent ≠ .foreign := by
  unfold State.nextEvent
  split
  case h_3 w rest hinputs =>
    obtain ⟨v, hv⟩ := h (.txn .other w) (by simp [hinputs])
    cases hv
  all_goals cases s.due <;> simp

theorem State.hostOnly.of_subset {s t : State} (h : s.hostOnly) (hsub : t.inputs ⊆ s.inputs) : t.hostOnly :=
  fun x hx => h x (hsub hx)

/-- A step asks the outside for nothing new: it takes the oldest input off the queue or leaves the queue alone. -/
theorem step_inputs_subset {s t : State} (h : step s = .next t) : t.inputs ⊆ s.inputs := by
  rcases step_next_cases h with ⟨-, rfl⟩ | ⟨p, -, rfl⟩ | ⟨w, -, hexec⟩ | ⟨-, rfl⟩
  · exact List.tail_subset _
  · exact List.Subset.refl _
  · obtain ⟨u, r, rfl, heffect, -⟩ := exec_next_effect hexec
    rw [State.respond_inputs, heffect.inputs]
    exact List.tail_subset _
  · exact List.Subset.refl _

/-- While a compression is pending only reset changes BLOCK (R46, R218). -/
theorem step_block_of_busy {s t : State} (hbusy : s.pend ≠ none) (hreset : ∀ rest, s.inputs ≠ .reset :: rest)
    (h : step s = .next t) : t.block = s.block := by
  rcases step_next_cases h with ⟨he, -⟩ | ⟨p, -, rfl⟩ | ⟨w, -, hexec⟩ | ⟨-, rfl⟩
  · obtain ⟨rest, hrest⟩ := (nextEvent_reset_iff s).mp he
    exact absurd hrest (hreset rest)
  · rfl
  · obtain ⟨u, hu, -, hblock, -⟩ := busyGateProtectsDatapath (decode w) s.popInput.tick hbusy
    obtain rfl : u = t := Host.Outcome.next.inj (hu.symm.trans hexec)
    exact hblock
  · rfl

/-- Settles O35, by induction on the free value: each step of the host brings the completion one step nearer and leaves the
captured pair, BLOCK and the kind of queue as they were. -/
theorem completionIsEventual : Obligations.CompletionIsEventual := by
  intro s p hp hhost
  induction hwait : s.wait generalizing s with
  | zero =>
    have hstep := (completionStep s p hp hhost.not_reset).1 hwait
    exact ⟨_, core_run_succ 0 hstep, rfl, rfl, rfl, rfl⟩
  | succ n ih =>
    obtain ⟨u, hstep⟩ := (onlySecondMasterStops s).1 hhost.nextEvent_ne_foreign
    obtain ⟨-, -, hpend, hnearer⟩ := (completionStep s p hp hhost.not_reset).2 (by omega) u hstep
    have hblock : u.block = s.block := step_block_of_busy (by simp [hp]) hhost.not_reset hstep
    obtain ⟨t, hrun, hh, hnone, hvalid, hblock'⟩ :=
      ih u hpend (hhost.of_subset (step_inputs_subset hstep)) (by omega)
    exact ⟨t, (core_run_succ (n + 1) hstep).trans hrun, hh, hnone, hvalid, hblock'.trans hblock⟩

end Sys2Proof.Machine
end

section
/-! The padding of spec/43_host_protocol.md R241-R243, and the blocks of a byte string. -/

namespace Sys2Proof.Machine

/-! ### Padding -/

theorem length_finalPadding (n : Nat) (bits : BitVec 64) : (finalPadding n bits).length = 9 + padZeros n := by
  simp [finalPadding, bytesBE64]
  omega

theorem paddingFor_eq_finalPadding (n : Nat) : paddingFor n = finalPadding n (BitVec.ofNat 64 (8 * n)) := rfl

theorem mod_add_padZeros (n : Nat) : (n + 1 + padZeros n) % 64 = 56 := by
  unfold padZeros
  omega

theorem padZeros_le {n z : Nat} (h : (n + 1 + z) % 64 = 56) : padZeros n ≤ z := by
  unfold padZeros
  omega

/-- Only the length modulo 64 decides what is appended, the length field aside. -/
theorem finalPadding_congr {n k : Nat} (h : n % 64 = k % 64) (bits : BitVec 64) :
    finalPadding n bits = finalPadding k bits := by
  simp only [finalPadding, padZeros, h]

theorem length_padMessage (m : List Byte) : (padMessage m).length = m.length + 9 + padZeros m.length := by
  rw [padMessage, paddingFor_eq_finalPadding, List.length_append, length_finalPadding]
  omega

/-- Settles O52: z is `padZeros`. -/
theorem paddingIsLeast : Obligations.PaddingIsLeast := by
  intro m
  have hmod := mod_add_padZeros m.length
  refine ⟨padZeros m.length, ?_, hmod, fun z' => padZeros_le, ?_⟩
  · simp [padMessage, paddingFor]
  · rw [length_padMessage]
    omega

/-! ### The whole blocks of a byte string -/

@[simp] theorem length_takeBlocks (k : Nat) (bs : List Byte) : (takeBlocks k bs).length = k := by
  induction k generalizing bs with
  | zero => rfl
  | succ k ih => simp [takeBlocks, ih]

@[simp] theorem length_wholeBlocks (bs : List Byte) : (wholeBlocks bs).length = bs.length / 64 :=
  length_takeBlocks _ _

theorem takeBlocks_add (j k : Nat) (bs : List Byte) :
    takeBlocks (j + k) bs = takeBlocks j bs ++ takeBlocks k (bs.drop (64 * j)) := by
  induction j generalizing bs with
  | zero => simp [takeBlocks]
  | succ j ih => rw [Nat.add_right_comm, takeBlocks, ih, takeBlocks, List.drop_drop, List.cons_append, Nat.mul_succ,
      Nat.add_comm 64]

theorem blockOfBytes_append {bs : List Byte} (h : 64 ≤ bs.length) (rest : List Byte) :
    blockOfBytes (bs ++ rest) = blockOfBytes bs := by
  have hbyte : ∀ k, k < 64 → (bs ++ rest).getD k 0 = bs.getD k 0 := fun k hk =>
    List.getD_append _ _ _ _ (by omega)
  unfold blockOfBytes
  congr 1
  funext i
  have hi := i.isLt
  rw [hbyte _ (by omega), hbyte _ (by omega), hbyte _ (by omega), hbyte _ (by omega)]

theorem takeBlocks_append {k : Nat} {bs : List Byte} (h : 64 * k ≤ bs.length) (rest : List Byte) :
    takeBlocks k (bs ++ rest) = takeBlocks k bs := by
  induction k generalizing bs with
  | zero => rfl
  | succ k ih =>
    rw [takeBlocks, takeBlocks, blockOfBytes_append (by omega), List.drop_append_of_le_length (by omega),
      ih (by rw [List.length_drop]; omega)]

/-- The whole blocks of a longer string: those of its beginning, then those of the bytes that were left over with the
rest. -/
theorem wholeBlocks_append (bs rest : List Byte) :
    wholeBlocks (bs ++ rest) = wholeBlocks bs ++ wholeBlocks (bs.drop (64 * (bs.length / 64)) ++ rest) := by
  have hfits : 64 * (bs.length / 64) ≤ bs.length := Nat.mul_div_le _ _
  have hcount : (bs ++ rest).length / 64 =
      bs.length / 64 + (bs.drop (64 * (bs.length / 64)) ++ rest).length / 64 := by
    simp only [List.length_append, List.length_drop]
    omega
  rw [wholeBlocks, hcount, takeBlocks_add, takeBlocks_append hfits, List.drop_append_of_le_length hfits]
  rfl

/-- One block before the rest. -/
theorem wholeBlocks_append_of_length {pad : List Byte} (h : pad.length = 64) (rest : List Byte) :
    wholeBlocks (pad ++ rest) = blockOfBytes pad :: wholeBlocks rest := by
  have hpad : wholeBlocks pad = [blockOfBytes pad] := by simp [wholeBlocks, h, takeBlocks]
  rw [wholeBlocks_append, hpad, List.drop_of_length_le (by omega)]
  rfl

/-- A padded string has a block, also where an earlier part of the message counts in its padding. -/
theorem exists_wholeBlocks_padded {bs : List Byte} {n : Nat} (h : bs.length % 64 = n % 64) (bits : BitVec 64) :
    ∃ b rest, wholeBlocks (bs ++ finalPadding n bits) = b :: rest := by
  refine List.exists_cons_of_length_pos ?_
  have hmod := mod_add_padZeros n
  rw [length_wholeBlocks, List.length_append, length_finalPadding]
  omega

theorem exists_wholeBlocks_padMessage (m : List Byte) : ∃ b rest, wholeBlocks (padMessage m) = b :: rest :=
  exists_wholeBlocks_padded rfl _

theorem exists_blocksAfterPad (msg : List Byte) : ∃ b rest, blocksAfterPad msg = b :: rest :=
  exists_wholeBlocks_padded (by omega) _

/-- Settles O53: the padded length divided by 64. -/
theorem paddedBlockCount : Obligations.PaddedBlockCount := by
  intro m
  have hmod := mod_add_padZeros m.length
  have hlt : padZeros m.length < 64 := Nat.mod_lt _ (by decide)
  rw [length_wholeBlocks, length_padMessage]
  split <;> omega

/-! ### Blocks compressed in order -/

theorem foldBlocks_cons (c : Chain) (b : Block) (bs : List Block) : foldBlocks c (b :: bs) = foldBlocks (compress c b) bs :=
  rfl

theorem foldBlocks_append (c : Chain) (as bs : List Block) : foldBlocks c (as ++ bs) = foldBlocks (foldBlocks c as) bs :=
  List.foldl_append

end Sys2Proof.Machine
end

section
/-! The digests of spec/43_host_protocol.md as functions on byte strings: the streaming context (R248, R249), HMAC from
precomputed pad states (R252) and the outputs of PBKDF2 (R253, R254). -/

namespace Sys2Proof.Machine

/-! ### One outcome after another -/

@[simp] theorem andThen_next {α β : Type} (a : α) (f : α → Host.Outcome β Fault Refusal) : andThen (.next a) f = f a := rfl

@[simp] theorem andThen_fault {α β : Type} (e : Fault) (f : α → Host.Outcome β Fault Refusal) :
    andThen (.fault e) f = .fault e := rfl

@[simp] theorem andThen_refused {α β : Type} (e : Refusal) (f : α → Host.Outcome β Fault Refusal) :
    andThen (.refused e) f = .refused e := rfl

/-- A run of two parts that ends has a first part that ends, and a second. -/
theorem exists_of_andThen_eq_next {α β : Type} {o : Host.Outcome α Fault Refusal} {f : α → Host.Outcome β Fault Refusal}
    {b : β} (h : andThen o f = .next b) : ∃ a, o = .next a ∧ f a = .next b := by
  cases o with
  | next a => exact ⟨a, rfl, h⟩
  | fault e => cases h
  | refused e => cases h

/-! ### The streaming context -/

/-- An open context that has taken in the bytes `m`: whatever follows, compressing from its state what is left over with
that is compressing all of it from IV. -/
structure HashContext.Absorbed (c : HashContext) (m : List Byte) : Prop where
  isOpen : c.finished = false
  totalBits : c.totalBits = BitVec.ofNat 64 (8 * m.length)
  buffered : c.buffer.length % 64 = m.length % 64
  hashed : ∀ rest, foldBlocks c.state (wholeBlocks (c.buffer ++ rest)) = foldBlocks iv (wholeBlocks (m ++ rest))

theorem HashContext.new_absorbed : HashContext.new.Absorbed [] := ⟨rfl, rfl, rfl, fun _ => rfl⟩

theorem HashContext.Absorbed.absorb {c : HashContext} {m : List Byte} (h : c.Absorbed m) (bs : List Byte) :
    (c.absorb bs).Absorbed (m ++ bs) where
  isOpen := h.isOpen
  totalBits := by
    rw [List.length_append, Nat.mul_add, BitVec.ofNat_add, ← h.totalBits]
    rfl
  buffered := by
    have hbuf := h.buffered
    simp only [HashContext.absorb, List.length_drop, List.length_append]
    omega
  hashed rest := by
    rw [HashContext.absorb, ← foldBlocks_append, ← wholeBlocks_append, List.append_assoc, h.hashed, List.append_assoc]

theorem HashContext.Absorbed.update {c : HashContext} {m bs : List Byte} (h : c.Absorbed m)
    (hadmitted : 8 * (m ++ bs).length < 2 ^ 64) : ∃ c', c.update bs = .next c' ∧ c'.Absorbed (m ++ bs) := by
  refine ⟨c.absorb bs, ?_, h.absorb bs⟩
  rw [List.length_append] at hadmitted
  have hbits : c.totalBits.toNat = 8 * m.length := by
    rw [h.totalBits, BitVec.toNat_ofNat, Nat.mod_eq_of_lt (by omega)]
  rw [HashContext.update, h.isOpen, hbits, if_neg (by decide), if_neg (by omega)]

theorem HashContext.Absorbed.updateAll {c : HashContext} {m : List Byte} {chunks : List (List Byte)} (h : c.Absorbed m)
    (hadmitted : 8 * (m ++ chunks.flatten).length < 2 ^ 64) :
    ∃ c', HashContext.updateAll chunks c = .next c' ∧ c'.Absorbed (m ++ chunks.flatten) := by
  induction chunks generalizing c m with
  | nil => exact ⟨c, rfl, by simpa using h⟩
  | cons bs rest ih =>
    rw [List.flatten_cons, ← List.append_assoc] at hadmitted ⊢
    have hfirst : 8 * (m ++ bs).length < 2 ^ 64 := by
      rw [List.length_append] at hadmitted
      omega
    obtain ⟨c₁, hupdate, h₁⟩ := h.update hfirst
    obtain ⟨c', hrest, h'⟩ := ih h₁ hadmitted
    exact ⟨c', by rw [HashContext.updateAll, hupdate, andThen_next, hrest], h'⟩

theorem HashContext.finalize_of_open {c : HashContext} (h : c.finished = false) :
    ∃ c', c.finalize = .next (chainBytes (foldBlocks c.state
      (wholeBlocks (c.buffer ++ finalPadding c.buffer.length c.totalBits))), c') ∧ c'.finished = true :=
  ⟨_, if_neg (by simp [h]), rfl⟩

theorem HashContext.Absorbed.finalize {c : HashContext} {m : List Byte} (h : c.Absorbed m) :
    ∃ c', c.finalize = .next (sha1 m, c') ∧ c'.finished = true := by
  have hpadding : finalPadding c.buffer.length c.totalBits = paddingFor m.length := by
    rw [finalPadding_congr h.buffered, h.totalBits, paddingFor_eq_finalPadding]
  have hfinal := HashContext.finalize_of_open h.isOpen
  rwa [hpadding, h.hashed] at hfinal

/-- A whole message in chunks, then `finalize`. -/
theorem HashContext.stream_yields_sha1 {chunks : List (List Byte)} (hadmitted : 8 * chunks.flatten.length < 2 ^ 64) :
    ∃ c c', HashContext.updateAll chunks HashContext.new = .next c ∧ c.finalize = .next (sha1 chunks.flatten, c') ∧
      c'.finished = true := by
  obtain ⟨c, hupdates, habsorbed⟩ := HashContext.new_absorbed.updateAll (chunks := chunks) hadmitted
  obtain ⟨c', hfinalize, hfinished⟩ := habsorbed.finalize
  exact ⟨c, c', hupdates, hfinalize, hfinished⟩

theorem HashContext.finalize_of_finished {c : HashContext} (h : c.finished = true) :
    c.finalize = .refused .contextFinalized := if_pos h

theorem HashContext.update_of_finished {c : HashContext} (h : c.finished = true) (bs : List Byte) :
    c.update bs = .refused .contextFinalized := if_pos h

/-! ### HMAC -/

@[simp] theorem length_sha1 (m : List Byte) : (sha1 m).length = 20 := length_chainBytes _

@[simp] theorem length_hmacSha1 (key msg : List Byte) : (hmacSha1 key msg).length = 20 := length_sha1 _

theorem length_hmacKeyBlock (key : List Byte) : (hmacKeyBlock key).length = 64 := by
  unfold hmacKeyBlock
  split
  · simp
  · rw [List.length_append, List.length_replicate]
    omega

@[simp] theorem length_innerPad (key : List Byte) : (innerPad key).length = 64 := by
  rw [innerPad, List.length_map, length_hmacKeyBlock]

@[simp] theorem length_outerPad (key : List Byte) : (outerPad key).length = 64 := by
  rw [outerPad, List.length_map, length_hmacKeyBlock]

/-- Hashing a pad block and then a message is hashing on from the state after the pad block. -/
theorem sha1_pad_append {pad : List Byte} (h : pad.length = 64) (msg : List Byte) :
    sha1 (pad ++ msg) = chainBytes (foldBlocks (compress iv (blockOfBytes pad)) (blocksAfterPad msg)) := by
  rw [sha1, padMessage, List.append_assoc, wholeBlocks_append_of_length h, List.length_append, h,
    foldBlocks_cons, blocksAfterPad]

/-- Settles O55: each of the two hashes continues from the state after its pad block. -/
theorem precomputedPadsGiveHmac : Obligations.PrecomputedPadsGiveHmac := by
  intro key msg
  rw [hmacSha1, sha1_pad_append (length_innerPad key), sha1_pad_append (length_outerPad key), hmacPrecomputed]

/-! ### PBKDF2 -/

theorem xorBytes_of_length_eq {x y : List Byte} {n : Nat} (hx : x.length = n) (hy : y.length = n) :
    ∃ z, xorBytes x y = .next z ∧ z.length = n :=
  ⟨_, if_pos (hx.trans hy.symm), by simp [hx, hy]⟩

theorem pbkdf2Iterate_next (password : List Byte) (n : Nat) (u : List Byte) {t : List Byte} (ht : t.length = 20) :
    ∃ x, pbkdf2Iterate password n u t = .next x ∧ x.length = 20 := by
  induction n generalizing u t with
  | zero => exact ⟨t, rfl, ht⟩
  | succ n ih =>
    obtain ⟨t', hxor, ht'⟩ := xorBytes_of_length_eq ht (length_hmacSha1 password u)
    obtain ⟨x, hx, hlen⟩ := ih (hmacSha1 password u) ht'
    exact ⟨x, by rw [pbkdf2Iterate, hxor, andThen_next, hx], hlen⟩

theorem pbkdf2Block_next (password salt : List Byte) (iterations i : Nat) :
    ∃ x, pbkdf2Block password salt iterations i = .next x ∧ x.length = 20 :=
  pbkdf2Iterate_next _ _ _ (length_hmacSha1 _ _)

theorem pbkdf2Blocks_succ_next {password salt done : List Byte} {iterations k : Nat}
    (h : pbkdf2Blocks password salt iterations k = .next done) :
    ∃ t, pbkdf2Blocks password salt iterations (k + 1) = .next (done ++ t) ∧ t.length = 20 := by
  obtain ⟨t, ht, hlen⟩ := pbkdf2Block_next password salt iterations (k + 1)
  exact ⟨t, by rw [pbkdf2Blocks, h, andThen_next, ht, andThen_next], hlen⟩

/-- More blocks begin with the fewer ones. -/
theorem pbkdf2Blocks_add_next {password salt done : List Byte} {iterations k : Nat}
    (h : pbkdf2Blocks password salt iterations k = .next done) (j : Nat) :
    ∃ more, pbkdf2Blocks password salt iterations (k + j) = .next (done ++ more) ∧ more.length = 20 * j := by
  induction j with
  | zero => exact ⟨[], by simpa using h, rfl⟩
  | succ j ih =>
    obtain ⟨more, hmore, hlen⟩ := ih
    obtain ⟨t, ht, htlen⟩ := pbkdf2Blocks_succ_next hmore
    exact ⟨more ++ t, by rwa [← List.append_assoc], by rw [List.length_append, hlen, htlen, Nat.mul_succ]⟩

theorem pbkdf2Blocks_next (password salt : List Byte) (iterations k : Nat) :
    ∃ done, pbkdf2Blocks password salt iterations k = .next done ∧ done.length = 20 * k := by
  simpa using pbkdf2Blocks_add_next (k := 0) (done := []) (rfl : pbkdf2Blocks password salt iterations 0 = .next []) k

section
variable {password salt : List Byte} {iterations len : Nat}

/-- R254's preconditions and R247's bounds, all met. -/
theorem pbkdf2Checks_of_met (hiter : 1 ≤ iterations) (hpassword : password ≠ []) (hsalt : salt ≠ [])
    (hlen : len ≤ (2 ^ 32 - 1) * 20) (hkey : 8 * password.length < 2 ^ 64)
    (hseed : 8 * (64 + (salt.length + 4)) < 2 ^ 64) : pbkdf2Checks password salt iterations len = .next () := by
  rw [pbkdf2Checks, if_neg (by omega), if_neg hpassword, if_neg hsalt, if_neg (by omega),
    if_neg (by simp only [admittedLength, hkey, hseed, decide_true]; decide)]

theorem pbkdf2_of_checks (h : pbkdf2Checks password salt iterations len = .next ()) {out : List Byte}
    (hblocks : pbkdf2Blocks password salt iterations (pbkdf2BlockCount len) = .next out) :
    pbkdf2 password salt iterations len = .next (out.take len) := by
  rw [pbkdf2, h, andThen_next, hblocks, andThen_next]

end

/-- Settles O56: the shorter request computes the first of the longer one's blocks, and its last bytes are in them. -/
theorem pbkdfOutputs : Obligations.PbkdfOutputs := by
  intro password salt iterations len more hiter hpassword hsalt hlen hkey hseed
  have hchecks (l : Nat) (hl : l ≤ (2 ^ 32 - 1) * 20) :=
    pbkdf2Checks_of_met (len := l) hiter hpassword hsalt hl hkey hseed
  have hcount : pbkdf2BlockCount (len + more) =
      pbkdf2BlockCount len + (pbkdf2BlockCount (len + more) - pbkdf2BlockCount len) := by
    unfold pbkdf2BlockCount
    omega
  have hshort : len ≤ 20 * pbkdf2BlockCount len := by
    unfold pbkdf2BlockCount
    omega
  have hlong : len + more ≤ 20 * pbkdf2BlockCount (len + more) := by
    unfold pbkdf2BlockCount
    omega
  obtain ⟨done, hdone, hdonelen⟩ := pbkdf2Blocks_next password salt iterations (pbkdf2BlockCount len)
  obtain ⟨rest, hall, hrestlen⟩ :=
    pbkdf2Blocks_add_next hdone (pbkdf2BlockCount (len + more) - pbkdf2BlockCount len)
  rw [← hcount] at hall
  refine ⟨_, pbkdf2_of_checks (hchecks _ hlen) hall, ?_, ?_⟩
  · rw [List.length_take, List.length_append]
    omega
  · rw [pbkdf2_of_checks (hchecks _ (by omega)) hdone, List.take_take, Nat.min_eq_left (by omega),
      List.take_append_of_le_length (by omega)]

end Sys2Proof.Machine
end

section
/-! The host at the bus (spec/43_host_protocol.md): its sequences over the block yield what the functions on byte strings
yield, and no event is recorded. -/

namespace Sys2Proof.Machine

/-! ### Hashing one message (R245) -/

/-- The 20 bytes of a chaining state that was read out. -/
theorem HostRun.digest_of_reads {r : HostRun} {c : Chain} (h : r.reads = c.toList) : r.digest = chainBytes c := by
  rw [HostRun.digest, h, chainBytes]

theorem hashOnCore_yields_sha1 {m : List Byte} (hadmitted : 8 * m.length < 2 ^ 64) (r : HostRun) :
    ∃ t, hashOnCore m r = .next t ∧ t.digest = sha1 m ∧ t.core.faults = r.core.faults ∧ t.core.pend = none ∧
      t.core.valid = true := by
  obtain ⟨b, rest, hblocks⟩ := exists_wholeBlocks_padMessage m
  obtain ⟨c, hrun, hready, hfaults, hvalid⟩ := run_last false b rest r (by simp)
  have hsequence : hashOnCore m r = runHost (lastOps false (b :: rest)) { r with reads := [] } := by
    rw [hashOnCore, admittedLength, decide_eq_true hadmitted, if_pos rfl, hblocks]
  exact ⟨_, hsequence.trans hrun, by rw [HostRun.digest_of_reads rfl, sha1, hblocks, if_neg (by decide)], hfaults, hready,
    hvalid⟩

/-- Settles O58: the padded message has a block, so the sequence is that of `run_last`. -/
theorem hashSequenceYieldsDigest : Obligations.HashSequenceYieldsDigest := fun _ r hadmitted =>
  hashOnCore_yields_sha1 hadmitted r

/-! ### Streaming over the block (R248, R249) -/

/-- The chaining state a message has reached: IV before its first block is issued, then what H holds once no compression is
pending. -/
def HostRun.chainOf (begun : Bool) (r : HostRun) : Chain := if begun then r.core.complete.h else iv

/-- Blocks of a message, possibly none, issued in order. -/
theorem run_messageOps (begun : Bool) (blocks : List Block) (r : HostRun) (hbook : begun = true → r.stale = []) :
    ∃ r', runHost (messageOps begun blocks) r = .next r' ∧ r'.core.faults = r.core.faults ∧
      ((begun || !blocks.isEmpty) = true → r'.stale = []) ∧
      r'.chainOf (begun || !blocks.isEmpty) = foldBlocks (r.chainOf begun) blocks := by
  cases blocks with
  | nil => exact ⟨r, rfl, rfl, by simpa using hbook, by simp [foldBlocks]⟩
  | cons b rest =>
    obtain ⟨c, hrun, hfaults, hchain, -⟩ := run_message begun b rest r hbook
    refine ⟨_, hrun, hfaults, fun _ => rfl, ?_⟩
    simpa [HostRun.chainOf] using hchain

/-- The context over the block carries the state of the context on byte strings: their chaining states, unconsumed bytes and
counters are the same, and no word of H is an ended message's once a block of this one was issued. -/
structure CoreContext.Carries (c : CoreContext) (p : HashContext) : Prop where
  chain : c.run.chainOf c.begun = p.state
  buffer : c.buffer = p.buffer
  totalBits : c.totalBits = p.totalBits
  finished : c.finished = p.finished
  book : c.begun = true → c.run.stale = []

theorem CoreContext.new_carries (r : HostRun) : (CoreContext.new r).Carries HashContext.new :=
  ⟨rfl, rfl, rfl, rfl, by simp [CoreContext.new]⟩

theorem HashContext.update_cases {p p' : HashContext} {bs : List Byte} (h : p.update bs = .next p') :
    p.finished = false ∧ ¬2 ^ 64 ≤ p.totalBits.toNat + 8 * bs.length ∧ p' = p.absorb bs := by
  unfold HashContext.update at h
  split at h
  · cases h
  · split at h
    · cases h
    · rename_i hopen hbits
      exact ⟨by simpa using hopen, hbits, (Host.Outcome.next.inj h).symm⟩

/-- The context once the whole blocks are issued, the host then at `r`. -/
def CoreContext.advance (bs : List Byte) (r : HostRun) (c : CoreContext) : CoreContext :=
  { c with
    run := r
    buffer := (c.buffer ++ bs).drop (64 * ((c.buffer ++ bs).length / 64))
    totalBits := c.totalBits + BitVec.ofNat 64 (8 * bs.length)
    begun := c.begun || !(wholeBlocks (c.buffer ++ bs)).isEmpty }

theorem CoreContext.update_of_open {c : CoreContext} {bs : List Byte} (hopen : c.finished = false)
    (hbits : ¬2 ^ 64 ≤ c.totalBits.toNat + 8 * bs.length) :
    c.update bs = andThen (runHost (messageOps c.begun (wholeBlocks (c.buffer ++ bs))) c.run) fun r =>
      .next (c.advance bs r) :=
  (if_neg (by simp [hopen])).trans (if_neg hbits)

theorem CoreContext.Carries.update {c : CoreContext} {p p' : HashContext} {bs : List Byte} (h : c.Carries p)
    (hupdate : p.update bs = .next p') :
    ∃ c', c.update bs = .next c' ∧ c'.Carries p' ∧ c'.run.core.faults = c.run.core.faults := by
  obtain ⟨hopen, hbits, rfl⟩ := HashContext.update_cases hupdate
  obtain ⟨r', hrun, hfaults, hbook, hchain⟩ := run_messageOps c.begun (wholeBlocks (c.buffer ++ bs)) c.run h.book
  rw [← h.finished] at hopen
  rw [← h.totalBits] at hbits
  rw [h.chain] at hchain
  refine ⟨c.advance bs r', by rw [CoreContext.update_of_open hopen hbits, hrun, andThen_next],
    ⟨?_, ?_, ?_, h.finished, hbook⟩, hfaults⟩
  · rw [CoreContext.advance, hchain, HashContext.absorb, h.buffer]
  · rw [CoreContext.advance, HashContext.absorb, h.buffer]
  · rw [CoreContext.advance, HashContext.absorb, h.totalBits]

theorem CoreContext.Carries.updateAll {c : CoreContext} {p p' : HashContext} {chunks : List (List Byte)} (h : c.Carries p)
    (hupdates : HashContext.updateAll chunks p = .next p') :
    ∃ c', CoreContext.updateAll chunks c = .next c' ∧ c'.Carries p' ∧ c'.run.core.faults = c.run.core.faults := by
  induction chunks generalizing c p with
  | nil =>
    obtain rfl := Host.Outcome.next.inj hupdates
    exact ⟨c, rfl, h, rfl⟩
  | cons bs rest ih =>
    obtain ⟨p₁, hupdate, hrest⟩ := exists_of_andThen_eq_next hupdates
    obtain ⟨c₁, hrun, h₁, hfaults₁⟩ := h.update hupdate
    obtain ⟨c', hruns, h', hfaults'⟩ := ih h₁ hrest
    exact ⟨c', by rw [CoreContext.updateAll, hrun, andThen_next, hruns], h', hfaults'.trans hfaults₁⟩

theorem CoreContext.Carries.finalize {c : CoreContext} {p p' : HashContext} {digest : List Byte} (h : c.Carries p)
    (hfinalize : p.finalize = .next (digest, p')) :
    ∃ c', c.finalize = .next (digest, c') ∧ c'.finished = true ∧ c'.run.core.faults = c.run.core.faults := by
  have hopen : p.finished = false := by
    by_contra hfinished
    rw [HashContext.finalize_of_finished (by simpa using hfinished)] at hfinalize
    cases hfinalize
  obtain ⟨b, rest, hblocks⟩ :=
    exists_wholeBlocks_padded (rfl : c.buffer.length % 64 = c.buffer.length % 64) c.totalBits
  obtain ⟨t, hrun, -, hfaults, -⟩ := run_last c.begun b rest c.run h.book
  obtain ⟨q, hq, -⟩ := HashContext.finalize_of_open hopen
  have hdigest : chainBytes (foldBlocks (c.run.chainOf c.begun) (b :: rest)) = digest := by
    rw [hfinalize, ← h.chain, ← h.buffer, ← h.totalBits, hblocks] at hq
    exact (Prod.mk.inj (Host.Outcome.next.inj hq)).1.symm
  rw [← h.finished] at hopen
  have hissue : c.finalize = andThen (runHost (lastOps c.begun (b :: rest)) { c.run with reads := [] }) fun r =>
      .next (r.digest, { c with run := r, buffer := [], begun := true, finished := true }) := by
    rw [CoreContext.finalize, hopen, if_neg (by decide), ← hblocks]
  rw [hrun, andThen_next, HostRun.digest_of_reads rfl, ← HostRun.chainOf, hdigest] at hissue
  exact ⟨_, hissue, rfl, hfaults⟩

theorem CoreContext.finalize_of_finished {c : CoreContext} (h : c.finished = true) :
    c.finalize = .refused .contextFinalized := if_pos h

theorem CoreContext.update_of_finished {c : CoreContext} (h : c.finished = true) (bs : List Byte) :
    c.update bs = .refused .contextFinalized := if_pos h

/-- Settles O54: the context on byte strings keeps `Absorbed`, and the one over the block carries its state. -/
theorem streamingEquivalence : Obligations.StreamingEquivalence := by
  constructor
  · intro chunks hadmitted
    obtain ⟨p, p', hupdates, hfinalize, hfinished⟩ := HashContext.stream_yields_sha1 hadmitted
    exact ⟨p, p', hupdates, hfinalize, HashContext.finalize_of_finished hfinished,
      HashContext.update_of_finished hfinished⟩
  · intro chunks r hadmitted
    obtain ⟨p, p', hupdates, hfinalize, -⟩ := HashContext.stream_yields_sha1 hadmitted
    obtain ⟨c, hruns, hcarries, hfaults⟩ := (CoreContext.new_carries r).updateAll hupdates
    obtain ⟨c', hrun, hfinished, hfaults'⟩ := hcarries.finalize hfinalize
    exact ⟨c, c', hruns, hrun, hfaults'.trans hfaults, CoreContext.finalize_of_finished hfinished,
      CoreContext.update_of_finished hfinished⟩

/-! ### HMAC over the block (R250-R252) -/

/-- S_in and S_out of a key (R252). -/
def PadStates.ofKey (key : List Byte) : PadStates where
  inner := compress iv (blockOfBytes (innerPad key))
  outer := compress iv (blockOfBytes (outerPad key))

theorem hmacSha1_eq_padStates (key msg : List Byte) : hmacSha1 key msg =
    chainBytes (foldBlocks (PadStates.ofKey key).outer (blocksAfterPad
      (chainBytes (foldBlocks (PadStates.ofKey key).inner (blocksAfterPad msg))))) :=
  (precomputedPadsGiveHmac key msg).symm

/-- The state of a pad block, computed and read out. -/
theorem run_padStateOps (pad : List Byte) (r : HostRun) :
    ∃ t, runHost (padStateOps pad) { r with reads := [] } = .next t ∧
      chainOfReads t.reads = compress iv (blockOfBytes pad) ∧ t.core.faults = r.core.faults := by
  obtain ⟨c, hblock, hfaults, hchain, -⟩ := run_block (blockOfBytes pad) false { r with reads := [] } (by simp)
  obtain ⟨t, hread, -, hfaults', -⟩ := run_readout { core := c, reads := [], stale := [] }
  have hblock' : runHost (blockOps (blockOfBytes pad) asmFirst) { r with reads := [] } =
      .next { core := c, reads := [], stale := [] } := hblock
  refine ⟨_, by rw [padStateOps, runHost_append, hblock', andThen_next, hread], ?_, hfaults'.trans hfaults⟩
  dsimp only at hchain ⊢
  rw [hchain]
  apply Vector.ext
  intro i hi
  simp [chainOfReads]

/-- A hash continued from a saved state. -/
theorem run_continueOps (saved : Chain) (msg : List Byte) (r : HostRun) :
    ∃ t, runHost (continueOps saved (blocksAfterPad msg)) { r with reads := [] } = .next t ∧
      t.digest = chainBytes (foldBlocks saved (blocksAfterPad msg)) ∧ t.core.faults = r.core.faults := by
  obtain ⟨b, rest, hblocks⟩ := exists_blocksAfterPad msg
  obtain ⟨c₁, hwait, hready₁, hfaults₁, -⟩ := act_wait { r with reads := [] }
  obtain ⟨c₂, hload, hready₂, hfaults₂, hsaved⟩ := run_ldh saved { r with core := c₁, reads := [] } hready₁
  obtain ⟨c₃, hlast, -, hfaults₃, -⟩ := run_last true b rest { core := c₂, reads := [], stale := [] } fun _ => rfl
  rw [if_pos rfl, State.complete_of_none hready₂, hsaved, ← hblocks] at hlast
  have hsequence : runHost (continueOps saved (blocksAfterPad msg)) { r with reads := [] } =
      runHost (lastOps true (blocksAfterPad msg)) { core := c₂, reads := [], stale := [] } := by
    rw [continueOps, runHost, hwait, andThen_next, runHost_append, hload, andThen_next]
  exact ⟨_, hsequence.trans hlast, HostRun.digest_of_reads rfl, hfaults₃.trans (hfaults₂.trans hfaults₁)⟩

theorem hmacKeyBlock_sha1 {key : List Byte} (h : key.length > 64) : hmacKeyBlock (sha1 key) = hmacKeyBlock key := by
  simp [hmacKeyBlock, h]

/-- A key and its short form have the same pad states. -/
theorem PadStates.ofKey_sha1 {key : List Byte} (h : key.length > 64) : PadStates.ofKey (sha1 key) = PadStates.ofKey key := by
  simp only [PadStates.ofKey, innerPad, outerPad, hmacKeyBlock_sha1 h]

theorem shortKeyOnCore_next {key : List Byte} (hkey : 8 * key.length < 2 ^ 64) (r : HostRun) :
    ∃ k t, shortKeyOnCore key r = .next (k, t) ∧ PadStates.ofKey k = PadStates.ofKey key ∧
      t.core.faults = r.core.faults := by
  by_cases hlong : key.length > 64
  · obtain ⟨t, hrun, hdigest, hfaults, -⟩ := hashOnCore_yields_sha1 hkey r
    refine ⟨sha1 key, t, ?_, PadStates.ofKey_sha1 hlong, hfaults⟩
    rw [shortKeyOnCore, if_pos hlong, hrun, andThen_next, hdigest]
  · exact ⟨key, r, if_neg hlong, rfl, rfl⟩

theorem padStatesOnCore_next {key : List Byte} (hkey : 8 * key.length < 2 ^ 64) (r : HostRun) :
    ∃ t, padStatesOnCore key r = .next (PadStates.ofKey key, t) ∧ t.core.faults = r.core.faults := by
  obtain ⟨k, t, hshort, hpads, hfaults⟩ := shortKeyOnCore_next hkey r
  obtain ⟨tIn, hin, hinner, hfaultsIn⟩ := run_padStateOps (innerPad k) t
  obtain ⟨tOut, hout, houter, hfaultsOut⟩ := run_padStateOps (outerPad k) tIn
  refine ⟨tOut, ?_, hfaultsOut.trans (hfaultsIn.trans hfaults)⟩
  rw [padStatesOnCore, hshort]
  simp only [andThen_next, hin, hout, hinner, houter]
  rw [← hpads, PadStates.ofKey]

/-- From the pad states of a key the block yields that key's HMAC. -/
theorem macOnCore_yields_hmac (key msg : List Byte) (r : HostRun) :
    ∃ t, macOnCore (.ofKey key) msg r = .next t ∧ t.digest = hmacSha1 key msg ∧ t.core.faults = r.core.faults := by
  obtain ⟨tIn, hin, hinner, hfaultsIn⟩ := run_continueOps (PadStates.ofKey key).inner msg r
  obtain ⟨tOut, hout, houter, hfaultsOut⟩ := run_continueOps (PadStates.ofKey key).outer tIn.digest tIn
  refine ⟨tOut, by rw [macOnCore, hin, andThen_next, hout], ?_, hfaultsOut.trans hfaultsIn⟩
  rw [houter, hinner, hmacSha1_eq_padStates]

/-- Settles O59: the pad states of the key, then the message's HMAC from them. -/
theorem hmacSequenceYieldsHmac : Obligations.HmacSequenceYieldsHmac := by
  intro key msg r hkey hmsg
  obtain ⟨t, hpads, hfaults⟩ := padStatesOnCore_next hkey r
  obtain ⟨t', hmac, hdigest, hfaults'⟩ := macOnCore_yields_hmac key msg t
  refine ⟨t', ?_, hdigest, hfaults'.trans hfaults⟩
  rw [hmacOnCore, admittedLength, decide_eq_true hmsg, if_pos rfl, hpads]
  exact hmac

/-! ### PBKDF2 over the block (R252-R254) -/

section
variable {password : List Byte}

theorem pbkdf2IterateOnCore_yields {n : Nat} {u t x : List Byte} (h : pbkdf2Iterate password n u t = .next x)
    (r : HostRun) : ∃ r', pbkdf2IterateOnCore (.ofKey password) n u t r = .next (x, r') ∧
      r'.core.faults = r.core.faults := by
  induction n generalizing u t r with
  | zero =>
    obtain rfl := Host.Outcome.next.inj h
    exact ⟨r, rfl, rfl⟩
  | succ n ih =>
    obtain ⟨t', hxor, hrest⟩ := exists_of_andThen_eq_next h
    obtain ⟨r₁, hmac, hdigest, hfaults⟩ := macOnCore_yields_hmac password u r
    obtain ⟨r', hrun, hfaults'⟩ := ih hrest r₁
    refine ⟨r', ?_, hfaults'.trans hfaults⟩
    rw [pbkdf2IterateOnCore, hmac, andThen_next, hdigest, hxor, andThen_next, hrun]

theorem pbkdf2BlockOnCore_yields {salt x : List Byte} {iterations i : Nat}
    (h : pbkdf2Block password salt iterations i = .next x) (r : HostRun) :
    ∃ r', pbkdf2BlockOnCore (.ofKey password) salt iterations i r = .next (x, r') ∧
      r'.core.faults = r.core.faults := by
  obtain ⟨r₁, hmac, hdigest, hfaults⟩ := macOnCore_yields_hmac password (pbkdf2Seed salt i) r
  obtain ⟨r', hrun, hfaults'⟩ := pbkdf2IterateOnCore_yields h r₁
  refine ⟨r', ?_, hfaults'.trans hfaults⟩
  rw [pbkdf2BlockOnCore, hmac, andThen_next, hdigest, hrun]

theorem pbkdf2BlocksOnCore_yields {salt x : List Byte} {iterations k : Nat}
    (h : pbkdf2Blocks password salt iterations k = .next x) (r : HostRun) :
    ∃ r', pbkdf2BlocksOnCore (.ofKey password) salt iterations k r = .next (x, r') ∧
      r'.core.faults = r.core.faults := by
  induction k generalizing x with
  | zero =>
    obtain rfl := Host.Outcome.next.inj h
    exact ⟨r, rfl, rfl⟩
  | succ k ih =>
    obtain ⟨done, hdone, hrest⟩ := exists_of_andThen_eq_next h
    obtain ⟨t, ht, hx⟩ := exists_of_andThen_eq_next hrest
    obtain rfl := Host.Outcome.next.inj hx
    obtain ⟨r₁, hruns, hfaults⟩ := ih hdone
    obtain ⟨r', hrun, hfaults'⟩ := pbkdf2BlockOnCore_yields ht r₁
    refine ⟨r', ?_, hfaults'.trans hfaults⟩
    rw [pbkdf2BlocksOnCore, hruns, andThen_next]
    simp only [hrun, andThen_next]

end

/-- Settles O60: the password's pad states once, then each block as the function on byte strings computes it. -/
theorem pbkdfSequenceYieldsKey : Obligations.PbkdfSequenceYieldsKey := by
  intro password salt iterations len r hiter hpassword hsalt hlen hkey hseed
  obtain ⟨out, hout, -, -⟩ := pbkdfOutputs password salt iterations len 0 hiter hpassword hsalt hlen hkey hseed
  rw [Nat.add_zero] at hout
  obtain ⟨⟨⟩, hchecks, hblocks⟩ := exists_of_andThen_eq_next hout
  obtain ⟨done, hdone, htake⟩ := exists_of_andThen_eq_next hblocks
  obtain rfl := Host.Outcome.next.inj htake
  obtain ⟨r₁, hpads, hfaults⟩ := padStatesOnCore_next hkey r
  obtain ⟨t, hruns, hfaults'⟩ := pbkdf2BlocksOnCore_yields hdone r₁
  refine ⟨_, t, ?_, hout, hfaults'.trans hfaults⟩
  rw [pbkdf2OnCore, hchecks, andThen_next, hpads, andThen_next]
  simp only [hruns, andThen_next]

end Sys2Proof.Machine
end

section
/-! What the host driver refuses (spec/43_host_protocol.md R247, R249, R254). -/

namespace Sys2Proof.Machine

/-! ### Messages that are not admitted -/

theorem admittedLength_of_long {n : Nat} (h : 2 ^ 64 ≤ 8 * n) : admittedLength n = false :=
  decide_eq_false (Nat.not_lt.mpr h)

theorem hashMessage_of_long {m : List Byte} (h : 2 ^ 64 ≤ 8 * m.length) : hashMessage m = .refused .messageTooLong := by
  rw [hashMessage, admittedLength_of_long h, if_neg (by decide)]

theorem hashOnCore_of_long {m : List Byte} (h : 2 ^ 64 ≤ 8 * m.length) (r : HostRun) :
    hashOnCore m r = .refused .messageTooLong := by
  rw [hashOnCore, admittedLength_of_long h, if_neg (by decide)]

theorem HashContext.update_of_long {c : HashContext} {bs : List Byte} (hopen : c.finished = false)
    (h : 2 ^ 64 ≤ c.totalBits.toNat + 8 * bs.length) : c.update bs = .refused .messageTooLong := by
  rw [HashContext.update, hopen, if_neg (by decide), if_pos h]

theorem CoreContext.update_of_long {c : CoreContext} {bs : List Byte} (hopen : c.finished = false)
    (h : 2 ^ 64 ≤ c.totalBits.toNat + 8 * bs.length) : c.update bs = .refused .messageTooLong := by
  rw [CoreContext.update, hopen, if_neg (by decide), if_pos h]

theorem hmacMessage_of_long {key msg : List Byte} (h : 2 ^ 64 ≤ 8 * key.length ∨ 2 ^ 64 ≤ 8 * (64 + msg.length)) :
    hmacMessage key msg = .refused .messageTooLong := by
  refine if_neg ?_
  rcases h with h | h <;> simp [admittedLength_of_long h]

/-- A key that is not admitted is longer than a block, so it is hashed first, which is refused. -/
theorem padStatesOnCore_of_long {key : List Byte} (h : 2 ^ 64 ≤ 8 * key.length) (r : HostRun) :
    padStatesOnCore key r = .refused .messageTooLong := by
  rw [padStatesOnCore, shortKeyOnCore, if_pos (by omega), hashOnCore_of_long h]
  rfl

theorem hmacOnCore_of_long {key msg : List Byte} (h : 2 ^ 64 ≤ 8 * key.length ∨ 2 ^ 64 ≤ 8 * (64 + msg.length))
    (r : HostRun) : hmacOnCore key msg r = .refused .messageTooLong := by
  unfold hmacOnCore
  split
  case isFalse => rfl
  case isTrue hmsg =>
    rcases h with h | h
    · rw [padStatesOnCore_of_long h, andThen_refused]
    · rw [admittedLength_of_long h] at hmsg
      cases hmsg

/-! ### `next` after a message's end (R249) -/

theorem act_next_of_stale {r : HostRun} (h : r.stale ≠ []) :
    r.act (.txn asmNext) = .refused .nextAfterMessageEnd := by
  unfold HostRun.act
  simp only [decode_next]
  rw [if_pos (by simpa using h)]

theorem act_endMessage (r : HostRun) : r.act .endMessage = .next { r with stale := [0, 1, 2, 3, 4] } := rfl

/-- The block answers every transaction of the driver. -/
theorem transact_next (w : TxnWord) (s : State) : ∃ t, transact w s = .next t := by
  by_cases hwait : s.wait = 0
  · cases hpend : s.pend with
    | none => rw [transact_of_ready hpend]; exact exec_next _ _
    | some p => rw [transact_of_due hpend hwait]; exact exec_next _ _
  · rw [transact_of_waiting hwait]
    exact exec_next _ _

/-- Every transaction but a `next` that the book forbids is performed. -/
theorem act_txn_next {line : AsmLine} {r : HostRun} (h : decode line.word ≠ .cmdNext ∨ r.stale = []) :
    ∃ c, transact line.word r.core = .next c ∧ r.act (.txn line) =
      .next { core := c, reads := r.reads ++ yielded c.resp, stale := r.book (decode line.word) } := by
  obtain ⟨c, hc⟩ := transact_next line.word r.core
  refine ⟨c, hc, ?_⟩
  unfold HostRun.act
  simp only [hc, andThen_next]
  rw [if_neg]
  rcases h with h | h <;> simp [h]

theorem writeChain_ne_next (k : Fin 5) (d : Word) : writeChain k d ≠ .cmdNext := by
  fin_cases k <;> simp [writeChain]

theorem chosenWords_writeChain (k : Fin 5) (d : Word) : chosenWords (writeChain k d) = [k] := by
  fin_cases k <;> rfl

/-- A load of one word leaves the other four in the book. -/
theorem book_writeChain_ne_nil {r : HostRun} (h : r.stale = [0, 1, 2, 3, 4]) (k : Fin 5) (d : Word) :
    r.book (writeChain k d) ≠ [] := by
  have hfour : ∀ k : Fin 5, ([0, 1, 2, 3, 4] : List (Fin 5)).filter (fun i => !([k] : List (Fin 5)).contains i) ≠ [] := by
    decide
  rw [HostRun.book, h, chosenWords_writeChain]
  split
  · simp
  · exact hfour k

/-- A transaction that chooses all five words, on a block that is not busy, empties the book. -/
theorem book_of_all_chosen {r : HostRun} {i : Instr} (hready : r.core.pend = none)
    (hall : chosenWords i = [0, 1, 2, 3, 4]) : r.book i = [] := by
  have hmem : ∀ k : Fin 5, k ∈ ([0, 1, 2, 3, 4] : List (Fin 5)) := by decide
  rw [HostRun.book_of_ready hready, hall, List.filter_eq_nil_iff]
  intro k _
  simp only [List.contains_iff_mem.mpr (hmem k), Bool.not_true, Bool.false_eq_true, not_false_eq_true]

/-- `first` or `init` on a block that is not busy empties the book. -/
theorem run_choosing_all {line : AsmLine} {r : HostRun} (hready : r.core.pend = none)
    (hall : chosenWords (decode line.word) = [0, 1, 2, 3, 4]) :
    ∃ t, runHost [.txn line] r = .next t ∧ t.stale = [] := by
  have hline : decode line.word ≠ .cmdNext := fun h => by
    rw [h] at hall
    cases hall
  obtain ⟨c, -, hact⟩ := act_txn_next (.inl hline)
  exact ⟨_, by rw [runHost, hact, andThen_next, runHost], book_of_all_chosen hready hall⟩

/-- R249's fresh starts: each leaves the book empty. -/
theorem run_fresh_start {saved : Chain} {start : List HostOp}
    (hstart : start ∈ [[.txn asmFirst], [.txn asmInit], (asmLdh saved).map .txn]) {r : HostRun}
    (hready : r.core.pend = none) : ∃ t, runHost start r = .next t ∧ t.stale = [] := by
  simp only [List.mem_cons, List.not_mem_nil, or_false] at hstart
  rcases hstart with rfl | rfl | rfl
  · exact run_choosing_all hready (by rw [decode_first]; rfl)
  · exact run_choosing_all hready (by rw [decode_init]; rfl)
  · obtain ⟨c, hload, -⟩ := run_ldh saved r hready
    exact ⟨_, hload, rfl⟩

theorem run_wr_chain_after_end (r : HostRun) (k : Fin 5) (d : Word) :
    ∃ t, runHost [.endMessage, .txn (.wr (.chain k) d)] r = .next t ∧ t.stale ≠ [] := by
  have hline : decode (AsmLine.wr (.chain k) d).word ≠ .cmdNext := by
    rw [decode_wr_chain]
    exact writeChain_ne_next k d
  obtain ⟨c, -, hact⟩ := act_txn_next (r := { r with stale := [0, 1, 2, 3, 4] }) (.inl hline)
  have hrun : runHost [.endMessage, .txn (.wr (.chain k) d)] r =
      andThen (HostRun.act (.txn (.wr (.chain k) d)) { r with stale := [0, 1, 2, 3, 4] }) (runHost []) := by
    rw [runHost, act_endMessage, andThen_next, runHost]
  rw [hact, andThen_next, decode_wr_chain] at hrun
  exact ⟨_, hrun, book_writeChain_ne_nil rfl k d⟩

theorem run_next_after_fresh_start {saved : Chain} {start : List HostOp}
    (hstart : start ∈ [[.txn asmFirst], [.txn asmInit], (asmLdh saved).map .txn]) (r : HostRun) :
    ∃ t, runHost (.endMessage :: .wait :: (start ++ [.wait, .txn asmNext])) r = .next t := by
  obtain ⟨c₁, hwait₁, hready, -⟩ := act_wait { r with stale := [0, 1, 2, 3, 4] }
  obtain ⟨t, hfresh, hbook⟩ := run_fresh_start hstart (r := ⟨c₁, r.reads, [0, 1, 2, 3, 4]⟩) hready
  obtain ⟨c₂, hwait₂, -⟩ := act_wait t
  obtain ⟨c₃, -, hnext⟩ := act_txn_next (line := asmNext) (r := { t with core := c₂ }) (.inr hbook)
  have hrun : runHost (.endMessage :: .wait :: (start ++ [.wait, .txn asmNext])) r =
      andThen (HostRun.act (.txn asmNext) { t with core := c₂ }) (runHost []) := by
    rw [runHost, act_endMessage, andThen_next, runHost, hwait₁, andThen_next, runHost_append, hfresh, andThen_next, runHost,
      hwait₂, andThen_next, runHost]
  exact ⟨_, hrun.trans (by rw [hnext, andThen_next, runHost])⟩

/-! ### PBKDF2's preconditions (R254) -/

theorem pbkdf2Checks_of_violated {password salt : List Byte} {iterations len : Nat}
    (h : iterations = 0 ∨ password = [] ∨ salt = [] ∨ (2 ^ 32 - 1) * 20 < len) :
    ∃ f, pbkdf2Checks password salt iterations len = .fault f := by
  unfold pbkdf2Checks
  split
  · exact ⟨_, rfl⟩
  split
  · exact ⟨_, rfl⟩
  split
  · exact ⟨_, rfl⟩
  split
  · exact ⟨_, rfl⟩
  · rename_i hiter hpassword hsalt hlen
    simp only [hiter, hpassword, hsalt, hlen, or_self] at h

/-- Settles O57, one kind of misuse after another. -/
theorem hostMisuseStops : Obligations.HostMisuseStops := by
  refine ⟨fun m r h => ⟨hashMessage_of_long h, hashOnCore_of_long h r⟩, fun c bs => HashContext.update_of_long,
    fun c bs => CoreContext.update_of_long, fun key msg r h => ⟨hmacMessage_of_long h, hmacOnCore_of_long h r⟩,
    fun r => act_next_of_stale, fun r k d => ?_, fun r saved start hstart => run_next_after_fresh_start hstart r,
    fun password salt iterations len h => ?_⟩
  · obtain ⟨t, hrun, hbook⟩ := run_wr_chain_after_end r k d
    exact ⟨t, hrun, act_next_of_stale hbook⟩
  · obtain ⟨f, hf⟩ := pbkdf2Checks_of_violated h
    exact ⟨f, by rw [pbkdf2, hf, andThen_fault], fun r => by rw [pbkdf2OnCore, hf, andThen_fault]⟩

end Sys2Proof.Machine
end

section
/-! The error priority of spec/60_exceptions.md R278, by R147's account of a transaction: both walk down the same tests, and
each write's effect raises the error its account names. -/

namespace Sys2Proof.Machine

/-! ### FAULT after an operation that raises at most one error -/

/-- FAULT of `t` is that of `s` with the event of `o`, where there is one (R275). -/
def FaultsGainAtMost (o : Option ErrorEvent) (s t : State) : Prop := ∀ x, x ∈ t.faults ↔ o = some x ∨ x ∈ s.faults

theorem faultsGainAtMost_none {s t : State} (h : t.faults = s.faults) : FaultsGainAtMost none s t := by
  simp [FaultsGainAtMost, h]

theorem faultsGainAtMost_raise (e : ErrorEvent) (s : State) : FaultsGainAtMost (some e) s (s.raise e) := by
  simp [FaultsGainAtMost, mem_recordEvent, eq_comm]

/-- An answer on the bus leaves FAULT alone (R113). -/
theorem FaultsGainAtMost.respond {o : Option ErrorEvent} {s t : State} (h : FaultsGainAtMost o s t) (r : Response) :
    FaultsGainAtMost o s (t.respond r) := h

/-- The error of an action at offset `a` behind the busy gate (R276). -/
def gateError (a : Offset) (s : State) : Option ErrorEvent := if s.pend ≠ none then some (.busyReject a) else none

theorem faultsGainAtMost_gated {a : Offset} {act : State → State} {s : State} (hact : (act s).faults = s.faults) :
    FaultsGainAtMost (gateError a s) s (s.gated a act) := by
  by_cases hready : s.pend = none
  · rw [gateError, if_neg (not_not.mpr hready), State.gated_of_ready hready]
    exact faultsGainAtMost_none hact
  · rw [gateError, if_pos hready, State.gated_of_busy hready]
    exact faultsGainAtMost_raise _ s

/-! ### The error of a full-strobe aligned write -/

/-- The error of `command(d)`: E2 before E1 (R170, R278). -/
def commandError (d : Word) (s : State) : Option ErrorEvent :=
  if 5 ≤ d.toNat then some (.illegalCmd d) else if 1 ≤ d.toNat ∧ d.toNat ≤ 3 then gateError 0x00#7 s else none

theorem faultsGainAtMost_commandEffect (d : Word) (s : State) :
    FaultsGainAtMost (commandError d s) s (commandEffect d s) := by
  rcases command_cases d with rfl | rfl | rfl | rfl | rfl | hillegal
  · exact faultsGainAtMost_none rfl
  · exact faultsGainAtMost_gated rfl
  · exact faultsGainAtMost_gated rfl
  · exact faultsGainAtMost_gated rfl
  · exact faultsGainAtMost_none rfl
  · rw [commandError, if_pos hillegal, commandEffect, if_pos hillegal]
    exact faultsGainAtMost_raise _ s

/-- The error of a write of `d` at offset `a`: the command's at CTRL, E1 at H and BLOCK, none elsewhere (R276, R277). -/
def writeError (a : Offset) (d : Word) (s : State) : Option ErrorEvent :=
  if a.toNat = 0x00 then commandError d s
  else if (0x20 ≤ a.toNat ∧ a.toNat ≤ 0x30) ∨ 0x40 ≤ a.toNat then gateError a s else none

theorem faultsGainAtMost_writeEffect (a : Offset) (d : Word) (s : State) :
    FaultsGainAtMost (writeError a d s) s (writeEffect a.toNat d s) := by
  rw [writeError, writeEffect, BitVec.ofNat_toNat, BitVec.setWidth_eq]
  by_cases hctrl : a.toNat = 0x00
  · rw [if_pos hctrl, if_pos hctrl]
    exact faultsGainAtMost_commandEffect d s
  rw [if_neg hctrl, if_neg hctrl]
  by_cases hchain : 0x20 ≤ a.toNat ∧ a.toNat ≤ 0x30
  · rw [if_pos (.inl hchain), if_pos hchain]
    exact faultsGainAtMost_gated rfl
  by_cases hblock : 0x40 ≤ a.toNat
  · rw [if_pos (.inr hblock), if_neg hchain, if_pos hblock]
    exact faultsGainAtMost_gated rfl
  · rw [if_neg (not_or.mpr ⟨hchain, hblock⟩), if_neg hchain, if_neg hblock]
    exact faultsGainAtMost_none rfl

/-! ### R278's tests in order -/

/-- Past the tests of E3 and E4 `expectedError` is the write's own error. -/
theorem expectedError_of_fullWrite {w : TxnWord} (haligned : ¬(addrOf w).toNat % 4 ≠ 0) (hrw : ¬rwOf w = false)
    (hstrb : ¬strbOf w ≠ 0b1111#4) (s : State) : expectedError w s = writeError (addrOf w) (wdataOf w) s := by
  rw [expectedError, if_neg haligned, if_neg hrw, if_neg hstrb, writeError]
  by_cases hctrl : addrOf w = 0x00#7
  · simp [hctrl, commandError, gateError, gatedWord, ite_and]
  · have hzero : (addrOf w).toNat ≠ 0x00 := fun h => hctrl (BitVec.eq_of_toNat_eq h)
    simp [hctrl, hzero, gateError, gatedWord, ite_and]

theorem faultsGainAtMost_stepTxn (w : TxnWord) (s : State) : FaultsGainAtMost (expectedError w s) s (stepTxn w s) := by
  by_cases haligned : (addrOf w).toNat % 4 ≠ 0
  · rw [expectedError, if_pos haligned, stepTxn, if_pos haligned]
    split <;> exact (faultsGainAtMost_raise _ s).respond _
  by_cases hrw : rwOf w = false
  · rw [expectedError, if_neg haligned, if_pos hrw, stepTxn, if_neg haligned, if_pos hrw]
    exact (faultsGainAtMost_none rfl).respond _
  by_cases hstrb : strbOf w ≠ 0b1111#4
  · rw [expectedError, if_neg haligned, if_neg hrw, if_pos hstrb, stepTxn, if_neg haligned, if_neg hrw, if_pos hstrb]
    exact (faultsGainAtMost_raise _ s).respond _
  · rw [expectedError_of_fullWrite haligned hrw hstrb, stepTxn, if_neg haligned, if_neg hrw, if_neg hstrb]
    exact (faultsGainAtMost_writeEffect _ _ s).respond _

/-- Settles O30: the transaction is R147's `step_txn`, which makes the tests of R278 in the same order. -/
theorem errorPriority : Obligations.ErrorPriority :=
  fun w s => ⟨stepTxn w s, transactionStepFunction w s, faultsGainAtMost_stepTxn w s⟩

end Sys2Proof.Machine
end

section
/-! Reset as a step (spec/70_reset_and_hazards.md). -/

namespace Sys2Proof.Machine

theorem step_of_reset {s : State} (h : s.nextEvent = .reset) : step s = .next s.popInput.takeReset := by
  simp [step, h]

/-- The ready form of R49's values: reset leaves nothing pending, busy or not before. -/
@[simp] theorem State.takeReset_ready (s : State) : s.takeReset.ready = true :=
  (State.ready_iff _).mpr s.takeReset_pend

/-- R49's value of BLOCK, word by word. -/
theorem State.takeReset_block_word (s : State) (k : Fin 16) : s.takeReset.block[k] = 0x00000000#32 := by
  obtain ⟨-, -, hzero, -, -⟩ := resetStateValues
  exact hzero k

/-- Settles O36: a reset at the head of the queue is the next event whatever is pending, and `takeReset` is what it does. -/
theorem resetStep : Obligations.ResetStep := by
  intro s rest hinputs
  have hstep : step s = .next s.popInput.takeReset := step_of_reset (nextEvent_of_reset hinputs)
  refine ⟨s.popInput.takeReset, hstep, State.takeReset_h _, State.takeReset_block_word _, State.takeReset_ready _,
    State.takeReset_valid _, State.takeReset_errBusy _, State.takeReset_errCmd _, State.takeReset_pend _, ?faults⟩
  rw [State.takeReset_faults, State.popInput_faults]

end Sys2Proof.Machine
end
